-- ==== Sys2Proof/Word.lean ====
section
/-! DEFINITION. The number types of the machine (00_scope.md R7): every value is unsigned. -/

namespace Sys2Proof

/-- `u8`: a register, a memory byte, a timer, the immediate NN. -/
abbrev Byte := BitVec 8

/-- `u16`: an opcode, I, pc, a stack slot. -/
abbrev Word := BitVec 16

/-- `u12`: the address immediate NNN. -/
abbrev Addr12 := BitVec 12

/-- The 4-bit immediate N of DXYN. -/
abbrev Nibble := BitVec 4

/-- A register number, 0 to 15 (30_encoding.md R47: all 16 values are legal). -/
abbrev Reg := Fin 16

end Sys2Proof
end

