-- ==== Sys2Proof/Syntax.lean ====
section
/-! DEFINITION. The instructions: one constructor per row of spec/opcode_table.json, named by the row's pattern
(30_encoding.md R50, R51, R54). Fields are those of R45; register numbers and immediates carry their ranges in their
types (R47), and the Y that 8XY6 and 8XYE do not use stays in the term (R53 a). -/

namespace Sys2Proof

inductive Instr where
  /-- clear the framebuffer (R93) -/
  | i00E0
  /-- return from subroutine (R65) -/
  | i00EE
  /-- jump (R66) -/
  | i1NNN (nnn : Addr12)
  /-- call subroutine (R67) -/
  | i2NNN (nnn : Addr12)
  /-- skip if VX = NN (R68) -/
  | i3XNN (x : Reg) (nn : Byte)
  /-- skip if VX differs from NN (R69) -/
  | i4XNN (x : Reg) (nn : Byte)
  /-- skip if VX = VY (R70) -/
  | i5XY0 (x y : Reg)
  /-- load immediate (R74) -/
  | i6XNN (x : Reg) (nn : Byte)
  /-- add immediate (R75) -/
  | i7XNN (x : Reg) (nn : Byte)
  /-- copy register (R76) -/
  | i8XY0 (x y : Reg)
  /-- or (R77) -/
  | i8XY1 (x y : Reg)
  /-- and (R78) -/
  | i8XY2 (x y : Reg)
  /-- exclusive or (R79) -/
  | i8XY3 (x y : Reg)
  /-- add with carry out (R80) -/
  | i8XY4 (x y : Reg)
  /-- subtract VY from VX (R81) -/
  | i8XY5 (x y : Reg)
  /-- shift right by one, Y ignored (R82) -/
  | i8XY6 (x y : Reg)
  /-- subtract VX from VY (R83) -/
  | i8XY7 (x y : Reg)
  /-- shift left by one, Y ignored (R84) -/
  | i8XYE (x y : Reg)
  /-- skip if VX differs from VY (R71) -/
  | i9XY0 (x y : Reg)
  /-- load index (R87) -/
  | iANNN (nnn : Addr12)
  /-- jump to NNN + V0 (R72) -/
  | iBNNN (nnn : Addr12)
  /-- random byte masked (R85) -/
  | iCXNN (x : Reg) (nn : Byte)
  /-- draw a sprite of N rows (R94) -/
  | iDXYN (x y : Reg) (n : Nibble)
  /-- skip if key VX is pressed (R96) -/
  | iEX9E (x : Reg)
  /-- skip if key VX is not pressed (R97) -/
  | iEXA1 (x : Reg)
  /-- read the delay timer (R99) -/
  | iFX07 (x : Reg)
  /-- wait for a key (R98) -/
  | iFX0A (x : Reg)
  /-- set the delay timer (R100) -/
  | iFX15 (x : Reg)
  /-- set the sound timer (R101) -/
  | iFX18 (x : Reg)
  /-- add register to index (R88) -/
  | iFX1E (x : Reg)
  /-- point I at a glyph (R89) -/
  | iFX29 (x : Reg)
  /-- store the three decimal digits of VX (R90) -/
  | iFX33 (x : Reg)
  /-- store V0 to VX (R91) -/
  | iFX55 (x : Reg)
  /-- load V0 to VX (R92) -/
  | iFX65 (x : Reg)
  deriving DecidableEq, Repr

end Sys2Proof
end

