-- ==== Sys2Proof/WellFormed.lean ====
section
/-! DEFINITION. The opcode map of 30_encoding.md R51 as data, and what makes a word well formed: it matches a row in
every fixed bit (R49, R51). An `Instr` needs no check of its own: R47 makes every value of X, Y, N, NN and NNN legal,
and the operand types hold exactly those values, so no ill-formed instruction can be written down. What can be ill
formed is a WORD, and `wellFormedWord` is the check on it, read from the table and not from the decoder. -/

namespace Sys2Proof

/-- A row of the opcode map: a word `w` is the instruction when `w & mask = pattern` (R51). -/
structure OpcodeRow where
  mnemonic : String
  mask : Word
  pattern : Word
  deriving DecidableEq, Repr

/-- The row matches the word in every fixed bit (R49: tested exactly, no don't-care bits). -/
def OpcodeRow.matches (r : OpcodeRow) (w : Word) : Bool := w &&& r.mask == r.pattern

/-- The row of an instruction (R51). -/
def rowOf : Instr → OpcodeRow
  | .i00E0 => ⟨"00E0", 0xFFFF, 0x00E0⟩
  | .i00EE => ⟨"00EE", 0xFFFF, 0x00EE⟩
  | .i1NNN _ => ⟨"1NNN", 0xF000, 0x1000⟩
  | .i2NNN _ => ⟨"2NNN", 0xF000, 0x2000⟩
  | .i3XNN _ _ => ⟨"3XNN", 0xF000, 0x3000⟩
  | .i4XNN _ _ => ⟨"4XNN", 0xF000, 0x4000⟩
  | .i5XY0 _ _ => ⟨"5XY0", 0xF00F, 0x5000⟩
  | .i6XNN _ _ => ⟨"6XNN", 0xF000, 0x6000⟩
  | .i7XNN _ _ => ⟨"7XNN", 0xF000, 0x7000⟩
  | .i8XY0 _ _ => ⟨"8XY0", 0xF00F, 0x8000⟩
  | .i8XY1 _ _ => ⟨"8XY1", 0xF00F, 0x8001⟩
  | .i8XY2 _ _ => ⟨"8XY2", 0xF00F, 0x8002⟩
  | .i8XY3 _ _ => ⟨"8XY3", 0xF00F, 0x8003⟩
  | .i8XY4 _ _ => ⟨"8XY4", 0xF00F, 0x8004⟩
  | .i8XY5 _ _ => ⟨"8XY5", 0xF00F, 0x8005⟩
  | .i8XY6 _ _ => ⟨"8XY6", 0xF00F, 0x8006⟩
  | .i8XY7 _ _ => ⟨"8XY7", 0xF00F, 0x8007⟩
  | .i8XYE _ _ => ⟨"8XYE", 0xF00F, 0x800E⟩
  | .i9XY0 _ _ => ⟨"9XY0", 0xF00F, 0x9000⟩
  | .iANNN _ => ⟨"ANNN", 0xF000, 0xA000⟩
  | .iBNNN _ => ⟨"BNNN", 0xF000, 0xB000⟩
  | .iCXNN _ _ => ⟨"CXNN", 0xF000, 0xC000⟩
  | .iDXYN _ _ _ => ⟨"DXYN", 0xF000, 0xD000⟩
  | .iEX9E _ => ⟨"EX9E", 0xF0FF, 0xE09E⟩
  | .iEXA1 _ => ⟨"EXA1", 0xF0FF, 0xE0A1⟩
  | .iFX07 _ => ⟨"FX07", 0xF0FF, 0xF007⟩
  | .iFX0A _ => ⟨"FX0A", 0xF0FF, 0xF00A⟩
  | .iFX15 _ => ⟨"FX15", 0xF0FF, 0xF015⟩
  | .iFX18 _ => ⟨"FX18", 0xF0FF, 0xF018⟩
  | .iFX1E _ => ⟨"FX1E", 0xF0FF, 0xF01E⟩
  | .iFX29 _ => ⟨"FX29", 0xF0FF, 0xF029⟩
  | .iFX33 _ => ⟨"FX33", 0xF0FF, 0xF033⟩
  | .iFX55 _ => ⟨"FX55", 0xF0FF, 0xF055⟩
  | .iFX65 _ => ⟨"FX65", 0xF0FF, 0xF065⟩

/-- The opcode map, row by row in the order of R51 (the operand values are irrelevant: a row depends on the
constructor only). -/
def opcodeTable : List OpcodeRow :=
  ([.i00E0, .i00EE, .i1NNN 0, .i2NNN 0, .i3XNN 0 0, .i4XNN 0 0, .i5XY0 0 0, .i6XNN 0 0, .i7XNN 0 0] ++
   [.i8XY0 0 0, .i8XY1 0 0, .i8XY2 0 0, .i8XY3 0 0, .i8XY4 0 0, .i8XY5 0 0, .i8XY6 0 0, .i8XY7 0 0, .i8XYE 0 0] ++
   [.i9XY0 0 0, .iANNN 0, .iBNNN 0, .iCXNN 0 0, .iDXYN 0 0 0, .iEX9E 0, .iEXA1 0] ++
   [.iFX07 0, .iFX0A 0, .iFX15 0, .iFX18 0, .iFX1E 0, .iFX29 0, .iFX33 0, .iFX55 0, .iFX65 0] : List Instr).map rowOf

/-- A word is well formed when some row of the opcode map matches it; every other word is an unknown opcode (R52). -/
def wellFormedWord (w : Word) : Bool := opcodeTable.any fun r => r.matches w

end Sys2Proof
end

