-- ==== Sys2Proof/Decode.lean ====
section
/-! DEFINITION. Decode (30_encoding.md R45, R48 to R50) and encode (R46, R51). `decodeWord` is the decode function of
R50, total on all 65536 words, with `none` for its `Unknown`; `decode` reads it from bytes and rejects by name. -/

namespace Sys2Proof

/-- Big-endian: the byte at the lower address is bits 15 to 8 (20_memory.md R30). -/
def wordOfBytes (hi lo : Byte) : Word := hi ++ lo

/-- Bits 15 to 8 of an opcode. -/
def highByte (w : Word) : Byte := w.extractLsb' 8 8

/-- Bits 7 to 0 of an opcode. -/
def lowByte (w : Word) : Byte := w.extractLsb' 0 8

/-- Field F, bits 15 to 12 (R45). -/
def fieldF (w : Word) : BitVec 4 := w.extractLsb' 12 4

/-- Field X, bits 11 to 8 (R45). -/
def fieldX (w : Word) : Reg := (w.extractLsb' 8 4).toFin

/-- Field Y, bits 7 to 4 (R45). -/
def fieldY (w : Word) : Reg := (w.extractLsb' 4 4).toFin

/-- Field N, bits 3 to 0 (R45). -/
def fieldN (w : Word) : Nibble := w.extractLsb' 0 4

/-- Field NN, bits 7 to 0 (R45). -/
def fieldNN (w : Word) : Byte := w.extractLsb' 0 8

/-- Field NNN, bits 11 to 0 (R45). -/
def fieldNNN (w : Word) : Addr12 := w.extractLsb' 0 12

/-- Family 0: the whole word is tested (R49). -/
def decodeFamily0 (w : Word) : Option Instr :=
  if w = 0x00E0 then some .i00E0
  else if w = 0x00EE then some .i00EE
  else none

/-- Family 8: the low nibble selects (R49, R50). -/
def decodeFamily8 (w : Word) : Option Instr :=
  match (fieldN w).toNat with
  | 0x0 => some (.i8XY0 (fieldX w) (fieldY w))
  | 0x1 => some (.i8XY1 (fieldX w) (fieldY w))
  | 0x2 => some (.i8XY2 (fieldX w) (fieldY w))
  | 0x3 => some (.i8XY3 (fieldX w) (fieldY w))
  | 0x4 => some (.i8XY4 (fieldX w) (fieldY w))
  | 0x5 => some (.i8XY5 (fieldX w) (fieldY w))
  | 0x6 => some (.i8XY6 (fieldX w) (fieldY w))
  | 0x7 => some (.i8XY7 (fieldX w) (fieldY w))
  | 0xE => some (.i8XYE (fieldX w) (fieldY w))
  | _ => none

/-- Family E: the low byte selects (R49, R50). -/
def decodeFamilyE (w : Word) : Option Instr :=
  match (fieldNN w).toNat with
  | 0x9E => some (.iEX9E (fieldX w))
  | 0xA1 => some (.iEXA1 (fieldX w))
  | _ => none

/-- Family F: the low byte selects (R49, R50). -/
def decodeFamilyF (w : Word) : Option Instr :=
  match (fieldNN w).toNat with
  | 0x07 => some (.iFX07 (fieldX w))
  | 0x0A => some (.iFX0A (fieldX w))
  | 0x15 => some (.iFX15 (fieldX w))
  | 0x18 => some (.iFX18 (fieldX w))
  | 0x1E => some (.iFX1E (fieldX w))
  | 0x29 => some (.iFX29 (fieldX w))
  | 0x33 => some (.iFX33 (fieldX w))
  | 0x55 => some (.iFX55 (fieldX w))
  | 0x65 => some (.iFX65 (fieldX w))
  | _ => none

/-- The decode function of R50; `none` is its `Unknown`. -/
def decodeWord (w : Word) : Option Instr :=
  match (fieldF w).toNat with
  | 0x0 => decodeFamily0 w
  | 0x1 => some (.i1NNN (fieldNNN w))
  | 0x2 => some (.i2NNN (fieldNNN w))
  | 0x3 => some (.i3XNN (fieldX w) (fieldNN w))
  | 0x4 => some (.i4XNN (fieldX w) (fieldNN w))
  | 0x5 => if fieldN w = 0 then some (.i5XY0 (fieldX w) (fieldY w)) else none
  | 0x6 => some (.i6XNN (fieldX w) (fieldNN w))
  | 0x7 => some (.i7XNN (fieldX w) (fieldNN w))
  | 0x8 => decodeFamily8 w
  | 0x9 => if fieldN w = 0 then some (.i9XY0 (fieldX w) (fieldY w)) else none
  | 0xA => some (.iANNN (fieldNNN w))
  | 0xB => some (.iBNNN (fieldNNN w))
  | 0xC => some (.iCXNN (fieldX w) (fieldNN w))
  | 0xD => some (.iDXYN (fieldX w) (fieldY w) (fieldN w))
  | 0xE => decodeFamilyE w
  | 0xF => decodeFamilyF w
  | _ => none

/-- Why bytes are no instruction. -/
inductive DecodeReject where
  /-- fewer than the two bytes of an instruction (R44) -/
  | truncated
  /-- the word is an unknown opcode (R52) -/
  | unknownOpcode (op : Word)
  deriving DecidableEq, Repr

/-- The instruction at the head of a byte sequence, and the bytes after it (R44: always two bytes). -/
def decode : List Byte → Except DecodeReject (Instr × List Byte)
  | hi :: lo :: rest =>
    match decodeWord (wordOfBytes hi lo) with
    | some i => .ok (i, rest)
    | none => .error (.unknownOpcode (wordOfBytes hi lo))
  | _ => .error .truncated

/-- A register number as its four bits (R45). -/
def regBits (x : Reg) : BitVec 4 := BitVec.ofFin x

/-- Format A (R46): F, NNN. -/
def formatA (f : BitVec 4) (nnn : Addr12) : Word := f ++ nnn

/-- Format XI (R46): F, X, NN. -/
def formatXI (f : BitVec 4) (x : Reg) (nn : Byte) : Word := f ++ regBits x ++ nn

/-- Formats XY and XYN (R46): F, X, Y and a last nibble, fixed or N. -/
def formatXYN (f : BitVec 4) (x y : Reg) (n : Nibble) : Word := f ++ regBits x ++ regBits y ++ n

/-- The word of an instruction (R46, R51). -/
def encode : Instr → Word
  | .i00E0 => 0x00E0
  | .i00EE => 0x00EE
  | .i1NNN nnn => formatA 0x1 nnn
  | .i2NNN nnn => formatA 0x2 nnn
  | .i3XNN x nn => formatXI 0x3 x nn
  | .i4XNN x nn => formatXI 0x4 x nn
  | .i5XY0 x y => formatXYN 0x5 x y 0x0
  | .i6XNN x nn => formatXI 0x6 x nn
  | .i7XNN x nn => formatXI 0x7 x nn
  | .i8XY0 x y => formatXYN 0x8 x y 0x0
  | .i8XY1 x y => formatXYN 0x8 x y 0x1
  | .i8XY2 x y => formatXYN 0x8 x y 0x2
  | .i8XY3 x y => formatXYN 0x8 x y 0x3
  | .i8XY4 x y => formatXYN 0x8 x y 0x4
  | .i8XY5 x y => formatXYN 0x8 x y 0x5
  | .i8XY6 x y => formatXYN 0x8 x y 0x6
  | .i8XY7 x y => formatXYN 0x8 x y 0x7
  | .i8XYE x y => formatXYN 0x8 x y 0xE
  | .i9XY0 x y => formatXYN 0x9 x y 0x0
  | .iANNN nnn => formatA 0xA nnn
  | .iBNNN nnn => formatA 0xB nnn
  | .iCXNN x nn => formatXI 0xC x nn
  | .iDXYN x y n => formatXYN 0xD x y n
  | .iEX9E x => formatXI 0xE x 0x9E
  | .iEXA1 x => formatXI 0xE x 0xA1
  | .iFX07 x => formatXI 0xF x 0x07
  | .iFX0A x => formatXI 0xF x 0x0A
  | .iFX15 x => formatXI 0xF x 0x15
  | .iFX18 x => formatXI 0xF x 0x18
  | .iFX1E x => formatXI 0xF x 0x1E
  | .iFX29 x => formatXI 0xF x 0x29
  | .iFX33 x => formatXI 0xF x 0x33
  | .iFX55 x => formatXI 0xF x 0x55
  | .iFX65 x => formatXI 0xF x 0x65

/-- The two bytes of an instruction, high byte first (20_memory.md R30, R31). -/
def encodeBytes (i : Instr) : List Byte := [highByte (encode i), lowByte (encode i)]

/-- The instruction the decoder reads from a row's bits, numbered as spec/opcode_table.json numbers them; bits above
`nbits` are 0. The one word is laid out high byte first, as the hardware stores it. -/
def decodeTableWord (nbits w : Nat) : Option Instr :=
  let op : Word := BitVec.ofNat 16 (w % 2 ^ nbits)
  match decode [highByte op, lowByte op] with
  | .ok (i, _) => some i
  | .error _ => none

end Sys2Proof
end

