-- ==== Sys2Proof/Config.lean ====
section
/-! DEFINITION. What is fixed for this machine (00_scope.md R5) and what the spec leaves open (R6, 92_eei_decisions.md). -/

namespace Sys2Proof.Config

/-- `MEM_SIZE` (R5): addresses 0x000 to 0xFFF. -/
def memSize : Nat := 0x1000

/-- `ROM_BASE` (R5): where `load` copies to, and the reset value of pc. -/
def romBase : Nat := 0x200

/-- `ROM_MAX` (R5): the largest ROM `load` accepts. -/
def romMax : Nat := 3584

/-- `FONT_BASE` (R5): the first byte of the font table. -/
def fontBase : Nat := 0x050

/-- `GLYPH_BYTES` (R5): bytes per glyph. -/
def glyphBytes : Nat := 5

/-- `MEM_INIT` (R6, 10_state.md R26): what a byte outside the font table holds at reset; also what an address that
memory does not list reads as. Log entry 2. -/
def memInit : Byte := 0x00

/-- `FONT_TABLE`, the default of 20_memory.md R35: 16 glyphs of 5 bytes, digit by digit. PRESUMED (the spec marks the
bytes as from general knowledge), unsafe for claims about glyph pixels: log entry 1. -/
def fontTable : Vector Byte 80 :=
  #v[0xF0, 0x90, 0x90, 0x90, 0xF0,  0x20, 0x60, 0x20, 0x20, 0x70,
     0xF0, 0x10, 0xF0, 0x80, 0xF0,  0xF0, 0x10, 0xF0, 0x10, 0xF0,
     0x90, 0x90, 0xF0, 0x10, 0x10,  0xF0, 0x80, 0xF0, 0x10, 0xF0,
     0xF0, 0x80, 0xF0, 0x90, 0xF0,  0xF0, 0x10, 0x20, 0x40, 0x40,
     0xF0, 0x90, 0xF0, 0x90, 0xF0,  0xF0, 0x90, 0xF0, 0x10, 0xF0,
     0xF0, 0x90, 0xF0, 0x90, 0x90,  0xE0, 0x90, 0xE0, 0x90, 0xE0,
     0xF0, 0x80, 0x80, 0x80, 0xF0,  0xE0, 0x90, 0x90, 0x90, 0xE0,
     0xF0, 0x80, 0xF0, 0x80, 0xF0,  0xF0, 0x80, 0xF0, 0x80, 0x80]

/-- FREE VALUE `rnd` (42_alu.md R85, 40_machine_cycle.md R63, D16): the n-th byte drawn. Nothing constrains it.
Log entry 3, safe within one run. -/
opaque freeByte : Nat → Byte

/-- FREE VALUE `FX29_HIGH` (43_index_memory.md R89, D9): what FX29 writes to I when V[X] > 15, a total function of
the byte of which nothing is assumed. Log entry 4, safe. -/
opaque fx29High : Byte → Word

end Sys2Proof.Config
end

