-- ==== Sys2Proof/Machine/State.lean ====
section
/-! DEFINITION. The machine's state (10_state.md R13 to R24), the state after reset (R25, R26), and the reasons a step
can stop. -/

namespace Sys2Proof.Machine

/-- Memory as the list of the bytes that differ from `Config.memInit`, by rising address; the canonical form is
`Memory.wf`. -/
abbrev Memory := List Host.Cell

/-- The framebuffer by rows: entry y is row y, its entry x the pixel FB[x][y] (10_state.md R19); true is 1 (on). -/
abbrev Framebuffer := Vector (Vector Bool 64) 32

/-- Everything the spec gives the Machine (10_state.md R13 to R22), and `draws`, the model's own. -/
structure State where
  /-- V0 to VF (R13, R14) -/
  v : Vector Byte 16
  /-- the index register I (R15) -/
  i : Word
  /-- the program counter (R16) -/
  pc : Word
  /-- SP, the number of return addresses held, 0 to 16 (R17, R22) -/
  sp : Fin 17
  /-- STACK[0] to STACK[15] (R17) -/
  stack : Vector Word 16
  /-- the delay timer DT (R18) -/
  dt : Byte
  /-- the sound timer ST (R18) -/
  st : Byte
  /-- the framebuffer FB (R19) -/
  fb : Framebuffer
  /-- KEY[0] to KEY[15], true is pressed (R20) -/
  key : Vector Bool 16
  /-- the memory MEM (R21) -/
  mem : Memory
  /-- the model's own field: how many random bytes have been drawn (R85; log entry 3) -/
  draws : Nat
  deriving DecidableEq, Repr

/-- What an access outside memory was for (20_memory.md R33). -/
inductive AccessKind where
  | fetch
  | read
  | write
  deriving DecidableEq, Repr

/-- The out-of-spec faults: the spec gives no successor state (60_exceptions.md R112, R116). -/
inductive Fault where
  /-- `AddressFault(kind, addr)`, raised by the fetch, DXYN, FX65, FX33 and FX55 when a byte of the access lies above
  0xFFF; `addr` is the lowest such address (20_memory.md R33, R34). Safe: the machine stops. -/
  | addressFault (kind : AccessKind) (addr : Nat)
  /-- `KeyIndexFault(v)`, raised by EX9E and EXA1 when V[X] = v > 15 (45_keypad_timers.md R96, R97). Safe: the
  machine stops. -/
  | keyIndexFault (v : Byte)
  deriving DecidableEq, Repr

/-- Why an instruction has no meaning in the model. -/
inductive Refusal where
  /-- raised by exec's arm of an instruction not modelled yet; safe (no arm raises it: every instruction has its
  meaning) -/
  | notModelled (mnemonic : String)
  deriving DecidableEq, Repr

/-- The outcome `step_cycle` reports to its caller (40_machine_cycle.md R62). It is stored nowhere in the Machine
(10_state.md R23 b). -/
inductive Report where
  | normal
  | unknownOpcode (op : Word)
  | stackOverflow
  | stackUnderflow
  | addressFault (kind : AccessKind) (addr : Nat)
  | keyIndexFault (v : Byte)
  deriving DecidableEq, Repr

/-- The cells of consecutive bytes from an address on, in canonical form. -/
def cellsFrom : Nat → List Byte → Memory
  | _, [] => []
  | a, b :: bs => if b = Config.memInit then cellsFrom (a + 1) bs else (a, b) :: cellsFrom (a + 1) bs

/-- The state after construction and after reset for a given font table (10_state.md R25, R26; 70_reset_and_hazards.md
R125, R126). -/
def State.resetWith (font : Vector Byte 80) : State where
  v := Vector.replicate 16 0x00
  i := 0x0000
  pc := 0x0200
  sp := 0
  stack := Vector.replicate 16 0x0000
  dt := 0x00
  st := 0x00
  fb := Vector.replicate 32 (Vector.replicate 64 false)
  key := Vector.replicate 16 false
  mem := cellsFrom Config.fontBase font.toList
  draws := 0

/-- The machine right after reset, with the default font table of 20_memory.md R35. -/
def State.reset : State := State.resetWith Config.fontTable

end Sys2Proof.Machine
end

