-- ==== Sys2Proof/Machine/Ops.lean ====
section
/-! DEFINITION. The named operations on memory, registers, stack, framebuffer and pc, and how a step ends
(00_scope.md R8 to R11, 40_machine_cycle.md R57, R59, R60). This hardware has no trap: no exception entry or return
exists (60_exceptions.md R111, R119), and `raise` only reports (00_scope.md R10). -/

namespace Sys2Proof.Machine

/-- What a meaning answers. -/
abbrev Result := Host.Outcome State Fault Refusal

/-- `MEM[a]`: the listed byte, else `Config.memInit` (00_scope.md R9, 10_state.md R26). -/
def Memory.read : Memory → Nat → Byte
  | [], _ => Config.memInit
  | (c, b) :: rest, a => if c = a then b else Memory.read rest a

/-- Put a cell in its place by rising address. -/
def Memory.insert (a : Nat) (b : Byte) : Memory → Memory
  | [] => [(a, b)]
  | (c, d) :: rest => if a < c then (a, b) :: (c, d) :: rest else (c, d) :: Memory.insert a b rest

/-- `MEM[a] <- b` (00_scope.md R9), keeping the canonical form. -/
def Memory.write (m : Memory) (a : Nat) (b : Byte) : Memory :=
  let rest := m.filter fun c => c.1 ≠ a
  if b = Config.memInit then rest else Memory.insert a b rest

/-- Bytes at `a`, `a + 1`, ... written one after the other (20_memory.md R38). -/
def Memory.writeBytes : Memory → Nat → List Byte → Memory
  | m, _, [] => m
  | m, a, b :: bs => Memory.writeBytes (m.write a b) (a + 1) bs

/-- The `n` bytes at `a`, `a + 1`, ... (20_memory.md R38). -/
def Memory.readBytes (m : Memory) : Nat → Nat → List Byte
  | _, 0 => []
  | a, n + 1 => m.read a :: Memory.readBytes m (a + 1) n

/-- The canonical form from address `lo` on: addresses strictly rising, inside memory, no byte equal to what an
unlisted address reads as. -/
def Memory.wfFrom : Nat → Memory → Bool
  | _, [] => true
  | lo, (a, b) :: rest => lo ≤ a && a < Config.memSize && b ≠ Config.memInit && Memory.wfFrom (a + 1) rest

/-- Memory is in canonical form. -/
def Memory.wf (m : Memory) : Bool := Memory.wfFrom 0 m

/-- The fault of an access to `len` bytes at `base`, if any byte lies above 0xFFF; the address it names is the lowest
such byte. An access to no byte cannot fault (20_memory.md R33, R34). -/
def rangeFault (kind : AccessKind) (base len : Nat) : Option Fault :=
  if 1 ≤ len ∧ Config.memSize < base + len then some (.addressFault kind (max base Config.memSize)) else none

/-- The whole access of an instruction is checked before it has any effect (20_memory.md R33, 43_index_memory.md
R86 c). -/
def guarded (kind : AccessKind) (base len : Nat) (ok : Result) : Result :=
  match rangeFault kind base len with
  | some f => .fault f
  | none => ok

/-- `V[x]` (00_scope.md R8). -/
def State.getV (s : State) (x : Reg) : Byte := s.v[x.val]

/-- `V[x] <- b`. -/
def State.setV (s : State) (x : Reg) (b : Byte) : State := { s with v := s.v.set x.val b }

/-- `I <- w`. -/
def State.setI (s : State) (w : Word) : State := { s with i := w }

/-- `pc <- w`. -/
def State.setPc (s : State) (w : Word) : State := { s with pc := w }

/-- `DT <- b`. -/
def State.setDT (s : State) (b : Byte) : State := { s with dt := b }

/-- `ST <- b`. -/
def State.setST (s : State) (b : Byte) : State := { s with st := b }

/-- `KEY[k]`. -/
def State.getKey (s : State) (k : Fin 16) : Bool := s.key[k.val]

/-- `KEY[k] <- p`. -/
def State.setKey (s : State) (k : Fin 16) (p : Bool) : State := { s with key := s.key.set k.val p }

/-- Replace memory. -/
def State.setMem (s : State) (m : Memory) : State := { s with mem := m }

/-- Replace the framebuffer. -/
def State.setFb (s : State) (f : Framebuffer) : State := { s with fb := f }

/-- The byte of memory at an address. -/
def State.byteAt (s : State) (a : Nat) : Byte := s.mem.read a

/-- `FB[x][y]` of a framebuffer (10_state.md R19). -/
def Framebuffer.pixel (f : Framebuffer) (x : Fin 64) (y : Fin 32) : Bool := f[y.val][x.val]

/-- `FB[x][y] <- FB[x][y] ^ 1` (44_display.md R94). -/
def Framebuffer.toggle (f : Framebuffer) (x : Fin 64) (y : Fin 32) : Framebuffer :=
  f.set y.val (f[y.val].set x.val (!f[y.val][x.val]))

/-- Push a return address: `STACK[SP] <- w`, then `SP <- SP + 1`; none when the stack is full (10_state.md R17,
41_flow.md R67). -/
def State.push (s : State) (w : Word) : Option State :=
  if h : s.sp.val < 16 then
    some { s with stack := s.stack.set s.sp.val w, sp := ⟨s.sp.val + 1, by omega⟩ }
  else none

/-- Pop a return address: `SP <- SP - 1`, then `STACK[SP]`, which keeps its value; none when the stack is empty
(10_state.md R17, 41_flow.md R65). -/
def State.pop (s : State) : Option (Word × State) :=
  if h : s.sp.val = 0 then none
  else some (s.stack[s.sp.val - 1]'(by omega), { s with sp := ⟨s.sp.val - 1, by omega⟩ })

/-- The byte CXNN draws, and the state in which the next draw is a fresh one (42_alu.md R85; log entry 3). -/
def State.draw (s : State) : Byte × State := (Config.freeByte s.draws, { s with draws := s.draws + 1 })

/-- The PC actions of 40_machine_cycle.md R60. -/
inductive PcAction where
  /-- `Continue`: pc + 2 -/
  | cont
  /-- `Skip`: pc + 4 -/
  | skip
  /-- `Jump(a)` -/
  | jump (a : Word)
  /-- `Hold`: pc unchanged -/
  | hold
  deriving DecidableEq, Repr

/-- Set pc as the action says; sums are modulo 65536 (40_machine_cycle.md R60, 10_state.md R16). -/
def State.act (s : State) : PcAction → State
  | .cont => s.setPc (s.pc + 2)
  | .skip => s.setPc (s.pc + 4)
  | .jump a => s.setPc a
  | .hold => s

/-- `done(action)`: the step ends with the writes made and pc set (00_scope.md R10, 40_machine_cycle.md R59). -/
def done (a : PcAction) (s : State) : Result := .next (s.act a)

/-- A skip instruction's end: `Skip` when the condition holds, else `Continue` (41_flow.md R64 d). -/
def skipIf (c : Bool) (s : State) : Result := if c then done .skip s else done .cont s

/-- Fetch: the two bytes at pc, big-endian, or the fetch fault (40_machine_cycle.md R57, 20_memory.md R30). -/
def fetch (s : State) : Except Fault Word :=
  match rangeFault .fetch s.pc.toNat 2 with
  | some f => .error f
  | none => .ok (wordOfBytes (s.mem.read s.pc.toNat) (s.mem.read (s.pc.toNat + 1)))

/-- The unknown opcode: pc + 2 and nothing else (40_machine_cycle.md R61, 30_encoding.md R52). -/
def execUnknown (s : State) : Result := done .cont s

end Sys2Proof.Machine
end

