-- ==== Sys2Proof/Machine/Flags.lean ====
section
/-! DEFINITION. The flags of the arithmetic instructions, computed from the operand values as the step began, and the
write of a result with its flag (10_state.md R14, 42_alu.md R73 e, f). Each flag is 0 or 1. -/

namespace Sys2Proof.Machine

/-- A flag as VF holds it. -/
def flagByte (c : Bool) : Byte := if c then 1 else 0

/-- 8XY4: 1 when the exact sum exceeds 255 (R80). -/
def carryOut (a b : Byte) : Byte := flagByte (255 < a.toNat + b.toNat)

/-- 8XY5 and 8XY7: 1 when `a - b` needs no borrow (R81, R83). -/
def noBorrow (a b : Byte) : Byte := flagByte (b.toNat ≤ a.toNat)

/-- 8XY6: bit 0, the bit shifted out (R82). -/
def shiftedOutRight (a : Byte) : Byte := flagByte (a.getLsbD 0)

/-- 8XYE: bit 7, the bit shifted out (R84). -/
def shiftedOutLeft (a : Byte) : Byte := flagByte (a.getLsbD 7)

/-- The register number of VF. -/
def regF : Reg := 15

/-- A result to V[X] and a flag to VF; when X = F the flag is what VF holds afterwards (R73 f). -/
def State.setResultFlag (s : State) (x : Reg) (r f : Byte) : State := (s.setV x r).setV regF f

end Sys2Proof.Machine
end

