-- ==== Sys2Proof/Machine/Alu.lean ====
section
/-! DEFINITION. Register load, arithmetic and logic: 6XNN, 7XNN, 8XY0 to 8XY7, 8XYE, CXNN (42_alu.md R73 to R85). -/

namespace Sys2Proof.Machine

/-- R74 -/
def exec6XNN (x : Reg) (nn : Byte) (s : State) : Result := done .cont (s.setV x nn)

/-- R75: no flag is written. -/
def exec7XNN (x : Reg) (nn : Byte) (s : State) : Result := done .cont (s.setV x (s.getV x + nn))

/-- R76 -/
def exec8XY0 (x y : Reg) (s : State) : Result := done .cont (s.setV x (s.getV y))

/-- R77: no flag is written. -/
def exec8XY1 (x y : Reg) (s : State) : Result := done .cont (s.setV x (s.getV x ||| s.getV y))

/-- R78: no flag is written. -/
def exec8XY2 (x y : Reg) (s : State) : Result := done .cont (s.setV x (s.getV x &&& s.getV y))

/-- R79: no flag is written. -/
def exec8XY3 (x y : Reg) (s : State) : Result := done .cont (s.setV x (s.getV x ^^^ s.getV y))

/-- R80 -/
def exec8XY4 (x y : Reg) (s : State) : Result :=
  done .cont (s.setResultFlag x (s.getV x + s.getV y) (carryOut (s.getV x) (s.getV y)))

/-- R81 -/
def exec8XY5 (x y : Reg) (s : State) : Result :=
  done .cont (s.setResultFlag x (s.getV x - s.getV y) (noBorrow (s.getV x) (s.getV y)))

/-- R82: VX is shifted in place; Y is not used. -/
def exec8XY6 (x _y : Reg) (s : State) : Result :=
  done .cont (s.setResultFlag x (s.getV x >>> 1) (shiftedOutRight (s.getV x)))

/-- R83 -/
def exec8XY7 (x y : Reg) (s : State) : Result :=
  done .cont (s.setResultFlag x (s.getV y - s.getV x) (noBorrow (s.getV y) (s.getV x)))

/-- R84: VX is shifted in place; Y is not used. -/
def exec8XYE (x _y : Reg) (s : State) : Result :=
  done .cont (s.setResultFlag x (s.getV x <<< 1) (shiftedOutLeft (s.getV x)))

/-- R85: the random byte is a free value (log entry 3). -/
def execCXNN (x : Reg) (nn : Byte) (s : State) : Result := done .cont (s.draw.2.setV x (s.draw.1 &&& nn))

end Sys2Proof.Machine
end

