-- ==== Sys2Proof/Machine/Operands.lean ====
section
/-! DEFINITION. Operand forms: immediates (30_encoding.md R47), the address of a block at I (43_index_memory.md R86,
20_memory.md R34), the block of registers V0 to VX, and the decimal digits of a byte. -/

namespace Sys2Proof.Machine

/-- `zext_16` (00_scope.md R7; 30_encoding.md R47). -/
def zext16 {n : Nat} (v : BitVec n) : Word := v.setWidth 16

/-- The address of byte k of an access based at I: an exact integer, no wrap (20_memory.md R34). -/
def State.effAddr (s : State) (k : Nat) : Nat := s.i.toNat + k

/-- V0 to VX, in order (43_index_memory.md R91). -/
def State.regsUpTo (s : State) (x : Reg) : List Byte := s.v.toList.take (x.val + 1)

/-- Load bytes into V[k], V[k+1], ...; registers past VF do not exist (43_index_memory.md R92). -/
def State.loadRegs : State → Nat → List Byte → State
  | s, _, [] => s
  | s, k, b :: bs => if h : k < 16 then State.loadRegs (s.setV ⟨k, h⟩ b) (k + 1) bs else s

/-- Hundreds, tens and ones of a byte, each a whole byte 0 to 9 (43_index_memory.md R90). -/
def bcdDigits (v : Byte) : List Byte := [v / 100, v / 10 % 10, v % 10]

/-- The lowest key index that is down, if any (45_keypad_timers.md R98). -/
def State.lowestKey (s : State) : Option (Fin 16) := (List.finRange 16).find? fun k => s.getKey k

/-- The address of glyph d for a digit, else the open parameter (43_index_memory.md R89; log entry 4). -/
def glyphAddr (v : Byte) : Word :=
  if v.toNat ≤ 0x0F then BitVec.ofNat 16 (Config.fontBase + Config.glyphBytes * v.toNat) else Config.fx29High v

end Sys2Proof.Machine
end

