-- ==== Sys2Proof/Machine/ControlFlow.lean ====
section
/-! DEFINITION. Control transfer: 00EE, 1NNN, 2NNN, 3XNN, 4XNN, 5XY0, 9XY0, BNNN (41_flow.md R64 to R72). -/

namespace Sys2Proof.Machine

/-- R65: pop into pc; with SP = 0 nothing changes (StackUnderflow is reported, `instrReport`). -/
def exec00EE (s : State) : Result :=
  match s.pop with
  | some (a, s') => done (.jump a) s'
  | none => done .hold s

/-- R66 -/
def exec1NNN (nnn : Addr12) (s : State) : Result := done (.jump (zext16 nnn)) s

/-- R67: push pc + 2 and jump; with SP = 16 nothing changes (StackOverflow is reported, `instrReport`). -/
def exec2NNN (nnn : Addr12) (s : State) : Result :=
  match s.push (s.pc + 2) with
  | some s' => done (.jump (zext16 nnn)) s'
  | none => done .hold s

/-- R68 -/
def exec3XNN (x : Reg) (nn : Byte) (s : State) : Result := skipIf (s.getV x == nn) s

/-- R69 -/
def exec4XNN (x : Reg) (nn : Byte) (s : State) : Result := skipIf (s.getV x != nn) s

/-- R70 -/
def exec5XY0 (x y : Reg) (s : State) : Result := skipIf (s.getV x == s.getV y) s

/-- R71 -/
def exec9XY0 (x y : Reg) (s : State) : Result := skipIf (s.getV x != s.getV y) s

/-- R72: the 16-bit sum NNN + V0, not masked to 12 bits. -/
def execBNNN (nnn : Addr12) (s : State) : Result := done (.jump (zext16 nnn + zext16 (s.getV 0))) s

end Sys2Proof.Machine
end

