-- ==== Sys2Proof/Machine/Display.lean ====
section
/-! DEFINITION. Display: 00E0 and DXYN (44_display.md R93, R94). -/

namespace Sys2Proof.Machine

/-- The framebuffer with every pixel 0 (R93). -/
def clearFb : Framebuffer := Vector.replicate 32 (Vector.replicate 64 false)

/-- The column of sprite column c: (x0 + c) mod 64 (R94). -/
def drawCol (x0 : Byte) (c : Nat) : Fin 64 := Fin.ofNat 64 (x0.toNat + c)

/-- The framebuffer row of sprite row r: (y0 + r) mod 32 (R94). -/
def drawLine (y0 : Byte) (r : Nat) : Fin 32 := Fin.ofNat 32 (y0.toNat + r)

/-- One sprite bit: a set bit toggles its pixel, and collides when the pixel was on (R94). -/
def drawBit (x0 : Byte) (py : Fin 32) (b : Byte) (d : Framebuffer × Bool) (c : Nat) : Framebuffer × Bool :=
  if b.getLsbD (7 - c) then
    (d.1.toggle (drawCol x0 c) py, d.2 || d.1.pixel (drawCol x0 c) py)
  else d

/-- One sprite byte: columns 0 to 7, bit 7 first (R94). -/
def drawRow (x0 : Byte) (py : Fin 32) (b : Byte) (d : Framebuffer × Bool) : Framebuffer × Bool :=
  (List.range 8).foldl (drawBit x0 py b) d

/-- The sprite's bytes from row r on (R94). -/
def drawRows (x0 y0 : Byte) : Nat → List Byte → Framebuffer × Bool → Framebuffer × Bool
  | _, [], d => d
  | r, b :: bs, d => drawRows x0 y0 (r + 1) bs (drawRow x0 (drawLine y0 r) b d)

/-- The framebuffer after a draw, and whether a pixel went from 1 to 0 (R94). -/
def drawSprite (x0 y0 : Byte) (sprite : List Byte) (f : Framebuffer) : Framebuffer × Bool :=
  drawRows x0 y0 0 sprite (f, false)

/-- R93 -/
def exec00E0 (s : State) : Result := done .cont (s.setFb clearFb)

/-- R94: coordinates, I and sprite are read as the step began; VF is the collision flag, always written. -/
def execDXYN (x y : Reg) (n : Nibble) (s : State) : Result :=
  let d := drawSprite (s.getV x) (s.getV y) (s.mem.readBytes (s.effAddr 0) n.toNat) s.fb
  guarded .read (s.effAddr 0) n.toNat (done .cont ((s.setFb d.1).setV regF (flagByte d.2)))

end Sys2Proof.Machine
end

