-- ==== Sys2Proof/Machine/IndexMemory.lean ====
section
/-! DEFINITION. Index register and memory transfer: ANNN, FX1E, FX29, FX33, FX55, FX65 (43_index_memory.md R86 to
R92). I is never changed by the three that move bytes (R86 a). -/

namespace Sys2Proof.Machine

/-- R87 -/
def execANNN (nnn : Addr12) (s : State) : Result := done .cont (s.setI (zext16 nnn))

/-- R88: a 16-bit sum; no flag is written. -/
def execFX1E (x : Reg) (s : State) : Result := done .cont (s.setI (s.i + zext16 (s.getV x)))

/-- R89: above 15 the value is free (log entry 4). -/
def execFX29 (x : Reg) (s : State) : Result := done .cont (s.setI (glyphAddr (s.getV x)))

/-- R90 -/
def execFX33 (x : Reg) (s : State) : Result :=
  guarded .write (s.effAddr 0) 3 (done .cont (s.setMem (s.mem.writeBytes (s.effAddr 0) (bcdDigits (s.getV x)))))

/-- R91 -/
def execFX55 (x : Reg) (s : State) : Result :=
  guarded .write (s.effAddr 0) (x.val + 1) (done .cont (s.setMem (s.mem.writeBytes (s.effAddr 0) (s.regsUpTo x))))

/-- R92 -/
def execFX65 (x : Reg) (s : State) : Result :=
  guarded .read (s.effAddr 0) (x.val + 1) (done .cont (s.loadRegs 0 (s.mem.readBytes (s.effAddr 0) (x.val + 1))))

end Sys2Proof.Machine
end

