-- ==== Sys2Proof/Machine/KeypadTimers.lean ====
section
/-! DEFINITION. Keypad and timer instructions: EX9E, EXA1, FX0A, FX07, FX15, FX18 (45_keypad_timers.md R96 to R101). -/

namespace Sys2Proof.Machine

/-- The state of the key a register numbers, or KeyIndexFault when the value is above 15 (R96, R97). -/
def State.keyOf (s : State) (x : Reg) : Except Fault Bool :=
  if h : (s.getV x).toNat < 16 then .ok (s.getKey ⟨(s.getV x).toNat, h⟩) else .error (.keyIndexFault (s.getV x))

/-- R96 -/
def execEX9E (x : Reg) (s : State) : Result :=
  match s.keyOf x with
  | .ok pressed => skipIf pressed s
  | .error f => .fault f

/-- R97 -/
def execEXA1 (x : Reg) (s : State) : Result :=
  match s.keyOf x with
  | .ok pressed => skipIf (!pressed) s
  | .error f => .fault f

/-- R98: a poll on the level of the keys; with no key down nothing changes. -/
def execFX0A (x : Reg) (s : State) : Result :=
  match s.lowestKey with
  | some k => done .cont (s.setV x (BitVec.ofNat 8 k.val))
  | none => done .hold s

/-- R99 -/
def execFX07 (x : Reg) (s : State) : Result := done .cont (s.setV x s.dt)

/-- R100 -/
def execFX15 (x : Reg) (s : State) : Result := done .cont (s.setDT (s.getV x))

/-- R101 -/
def execFX18 (x : Reg) (s : State) : Result := done .cont (s.setST (s.getV x))

end Sys2Proof.Machine
end

