-- ==== Sys2Proof/Machine/Dispatch.lean ====
section
/-! DEFINITION. One arm per instruction: the handler of each (40_machine_cycle.md R59), in the table's order. -/

namespace Sys2Proof.Machine

def exec (i : Instr) (s : State) : Host.Outcome State Fault Refusal :=
  match i with
  | .i00E0 => Sys2Proof.Machine.exec00E0 s
  | .i00EE => Sys2Proof.Machine.exec00EE s
  | .i1NNN nnn => Sys2Proof.Machine.exec1NNN nnn s
  | .i2NNN nnn => Sys2Proof.Machine.exec2NNN nnn s
  | .i3XNN x nn => Sys2Proof.Machine.exec3XNN x nn s
  | .i4XNN x nn => Sys2Proof.Machine.exec4XNN x nn s
  | .i5XY0 x y => Sys2Proof.Machine.exec5XY0 x y s
  | .i6XNN x nn => Sys2Proof.Machine.exec6XNN x nn s
  | .i7XNN x nn => Sys2Proof.Machine.exec7XNN x nn s
  | .i8XY0 x y => Sys2Proof.Machine.exec8XY0 x y s
  | .i8XY1 x y => Sys2Proof.Machine.exec8XY1 x y s
  | .i8XY2 x y => Sys2Proof.Machine.exec8XY2 x y s
  | .i8XY3 x y => Sys2Proof.Machine.exec8XY3 x y s
  | .i8XY4 x y => Sys2Proof.Machine.exec8XY4 x y s
  | .i8XY5 x y => Sys2Proof.Machine.exec8XY5 x y s
  | .i8XY6 x y => Sys2Proof.Machine.exec8XY6 x y s
  | .i8XY7 x y => Sys2Proof.Machine.exec8XY7 x y s
  | .i8XYE x y => Sys2Proof.Machine.exec8XYE x y s
  | .i9XY0 x y => Sys2Proof.Machine.exec9XY0 x y s
  | .iANNN nnn => Sys2Proof.Machine.execANNN nnn s
  | .iBNNN nnn => Sys2Proof.Machine.execBNNN nnn s
  | .iCXNN x nn => Sys2Proof.Machine.execCXNN x nn s
  | .iDXYN x y n => Sys2Proof.Machine.execDXYN x y n s
  | .iEX9E x => Sys2Proof.Machine.execEX9E x s
  | .iEXA1 x => Sys2Proof.Machine.execEXA1 x s
  | .iFX07 x => Sys2Proof.Machine.execFX07 x s
  | .iFX0A x => Sys2Proof.Machine.execFX0A x s
  | .iFX15 x => Sys2Proof.Machine.execFX15 x s
  | .iFX18 x => Sys2Proof.Machine.execFX18 x s
  | .iFX1E x => Sys2Proof.Machine.execFX1E x s
  | .iFX29 x => Sys2Proof.Machine.execFX29 x s
  | .iFX33 x => Sys2Proof.Machine.execFX33 x s
  | .iFX55 x => Sys2Proof.Machine.execFX55 x s
  | .iFX65 x => Sys2Proof.Machine.execFX65 x s

end Sys2Proof.Machine
end

