-- ==== Sys2Proof/Machine/Step.lean ====
section
/-! DEFINITION. One step: fetch, decode, execute (40_machine_cycle.md R56 to R59), the checks in the order of
60_exceptions.md R117. -/

namespace Sys2Proof.Machine

/-- `step_cycle` (R59). Any word that is no instruction runs as an unknown opcode (R61). -/
def step (s : State) : Host.Outcome State Fault Refusal :=
  match fetch s with
  | .error f => .fault f
  | .ok op =>
    match decodeWord op with
    | some i => exec i s
    | none => execUnknown s

/-- The instruction word, high byte first, at the two bytes the next step fetches (where pc lies in memory). It stands
for the host's `load`: log entry 5. -/
def State.withFetchWord (s : State) (nbits w : Nat) : State :=
  let op : Word := BitVec.ofNat 16 (w % 2 ^ nbits)
  if s.pc.toNat + 1 < Config.memSize then
    s.setMem (s.mem.writeBytes s.pc.toNat [highByte op, lowByte op])
  else s

end Sys2Proof.Machine
end

