-- ==== Sys2Proof/Machine/Report.lean ====
section
/-! DEFINITION. The outcome a step reports to its caller (40_machine_cycle.md R62, 60_exceptions.md R112). The Machine
stores it nowhere (10_state.md R23 b), so it is a function of the state the step began in. -/

namespace Sys2Proof.Machine

/-- What an instruction reports when its step has a successor state: the stack conditions of 2NNN and 00EE, else
`Normal` (a held FX0A too). -/
def instrReport (i : Instr) (s : State) : Report :=
  match i with
  | .i2NNN _ => if (s.push (s.pc + 2)).isNone then .stackOverflow else .normal
  | .i00EE => if s.pop.isNone then .stackUnderflow else .normal
  | .i00E0 | .i1NNN _ | .i3XNN _ _ | .i4XNN _ _ | .i5XY0 _ _ | .i6XNN _ _ | .i7XNN _ _ | .i8XY0 _ _ | .i8XY1 _ _ => .normal
  | .i8XY2 _ _ | .i8XY3 _ _ | .i8XY4 _ _ | .i8XY5 _ _ | .i8XY6 _ _ | .i8XY7 _ _ | .i8XYE _ _ | .i9XY0 _ _ => .normal
  | .iANNN _ | .iBNNN _ | .iCXNN _ _ | .iDXYN _ _ _ | .iEX9E _ | .iEXA1 _ | .iFX07 _ | .iFX0A _ | .iFX15 _ => .normal
  | .iFX18 _ | .iFX1E _ | .iFX29 _ | .iFX33 _ | .iFX55 _ | .iFX65 _ => .normal

/-- A fault as the report names it. -/
def faultReport : Fault → Report
  | .addressFault k a => .addressFault k a
  | .keyIndexFault v => .keyIndexFault v

/-- The outcome of the step that begins in `s`. -/
def stepReport (s : State) : Report :=
  match fetch s with
  | .error f => faultReport f
  | .ok op =>
    match decodeWord op with
    | none => .unknownOpcode op
    | some i =>
      match exec i s with
      | .fault f => faultReport f
      | .next _ => instrReport i s
      | .refused _ => instrReport i s

end Sys2Proof.Machine
end

