-- ==== Sys2Proof/Machine/HostOps.lean ====
section
/-! DEFINITION. The operations the Machine exposes to its host (46_host_operations.md R102 to R110): each one atomic
transition; a history is a list of them, so that any finite sequence of host operations may fall between two steps. -/

namespace Sys2Proof.Machine

/-- `load(bytes)` on an accepted buffer: the bytes from 0x200 on, nothing else (R103). -/
def hostLoad (bytes : List Byte) (s : State) : State :=
  if bytes.length ≤ Config.romMax then s.setMem (s.mem.writeBytes Config.romBase bytes) else s

/-- `tick_timers()`: each timer down by one while above 0 (R104). -/
def hostTick (s : State) : State :=
  let s1 := if s.dt = 0 then s else s.setDT (s.dt - 1)
  if s.st = 0 then s1 else s1.setST (s.st - 1)

/-- `set_key(index, pressed)`: one key; an index above 15 is refused with no state change (R105, D24). -/
def hostSetKey (index : Nat) (pressed : Bool) (s : State) : State :=
  if h : index < 16 then s.setKey ⟨index, h⟩ pressed else s

/-- `reset()`: the reset state (R106, 70_reset_and_hazards.md R125). The random source is no state of the Machine and
is not restarted (42_alu.md R85): the model's own `draws` goes on (log entry 3). -/
def hostReset (s : State) : State := { State.reset with draws := s.draws }

/-- `framebuffer()`: element y * 64 + x is FB[x][y] as 0 or 1 (R107). -/
def hostFramebuffer (s : State) : Vector (BitVec 1) 2048 :=
  Vector.ofFn fun j : Fin 2048 =>
    BitVec.ofBool (s.fb.pixel (Fin.ofNat 64 j.val) ⟨j.val / 64, by omega⟩)

/-- `sound_timer()` (R108). -/
def hostSoundTimer (s : State) : Byte := s.st

/-- `delay_timer()` (R108). -/
def hostDelayTimer (s : State) : Byte := s.dt

/-- The operations of R102, with their arguments. -/
inductive HostOp where
  | load (bytes : List Byte)
  | stepCycle
  | tickTimers
  | setKey (index : Nat) (pressed : Bool)
  | reset
  | framebuffer
  | soundTimer
  | delayTimer
  deriving DecidableEq, Repr

/-- What an operation returns to the host (R102). -/
inductive Answer where
  | nothing
  | loadOk
  /-- `LoadError::TooLarge` (60_exceptions.md R115) -/
  | loadTooLarge
  /-- `set_key` with an index that is no key (R105) -/
  | keyIndexRefused
  | outcome (r : Report)
  | view (pixels : Vector (BitVec 1) 2048)
  | timer (v : Byte)
  deriving DecidableEq, Repr

/-- The state an operation leaves (R102, R110); only a step can fault. -/
def perform (op : HostOp) (s : State) : Host.Outcome State Fault Refusal :=
  match op with
  | .load bytes => .next (hostLoad bytes s)
  | .stepCycle => step s
  | .tickTimers => .next (hostTick s)
  | .setKey index pressed => .next (hostSetKey index pressed s)
  | .reset => .next (hostReset s)
  | .framebuffer => .next s
  | .soundTimer => .next s
  | .delayTimer => .next s

/-- What the operation returns (R102). -/
def answer (op : HostOp) (s : State) : Answer :=
  match op with
  | .load bytes => if bytes.length ≤ Config.romMax then .loadOk else .loadTooLarge
  | .stepCycle => .outcome (stepReport s)
  | .tickTimers => .nothing
  | .setKey index _ => if index < 16 then .nothing else .keyIndexRefused
  | .reset => .nothing
  | .framebuffer => .view (hostFramebuffer s)
  | .soundTimer => .timer (hostSoundTimer s)
  | .delayTimer => .timer (hostDelayTimer s)

/-- A history: each operation applied to the state the one before it left (R110), stopping at a fault. -/
def history : List HostOp → State → Host.Outcome State Fault Refusal
  | [], s => .next s
  | op :: ops, s =>
    match perform op s with
    | .next t => history ops t
    | .fault f => .fault f
    | .refused r => .refused r

end Sys2Proof.Machine
end

