-- ==== Sys2Proof/Safety.lean ====
section
/-! DEFINITION. What counts as ended, hung, waiting and safe (70_reset_and_hazards.md R129 to R131), the invariant of
the machine (10_state.md R16, R17), and the parts of the state that an instruction may write (10_state.md R27). -/

namespace Sys2Proof.Safety

open Sys2Proof.Machine

/-- The instruction the next step runs, if its fetch is in range and its word is an instruction. -/
def instrAt (s : State) : Option Instr :=
  match fetch s with
  | .ok op => decodeWord op
  | .error _ => none

/-- ENDED: the instruction at pc is a jump to pc (R129). -/
def ended (s : State) : Bool :=
  match instrAt s with
  | some (.i1NNN nnn) => nnn.toNat == s.pc.toNat
  | _ => false

/-- A stack fault that repeats for ever: neither ended nor safe (R131). -/
def hung (s : State) : Bool := stepReport s == .stackOverflow || stepReport s == .stackUnderflow

/-- FX0A at pc with no key down: nothing changes until the host presses a key (R130). -/
def waiting (s : State) : Bool :=
  match instrAt s with
  | some (.iFX0A _) => s.lowestKey.isNone
  | _ => false

/-- The next step has a successor state and is not a stack fault (R112, R131). -/
def stepSafe (s : State) : Bool :=
  match step s with
  | .next _ => !hung s
  | .fault _ => false
  | .refused _ => false

/-- Every operation of a history that is a step is safe. -/
def safeHistory : List HostOp → State → Bool
  | [], _ => true
  | op :: ops, s =>
    (op != .stepCycle || stepSafe s) &&
      match perform op s with
      | .next t => safeHistory ops t
      | .fault _ => false
      | .refused _ => false

/-- Memory is canonical and inside 0x000 to 0xFFF, pc never exceeds 0x10FE (10_state.md R16), and no stack slot exceeds
0x1000, the largest pc + 2 a call can push (41_flow.md R67). -/
abbrev Inv (s : State) : Prop :=
  s.mem.wf = true ∧ s.pc.toNat ≤ 0x10FE ∧ ∀ k : Fin 16, (s.stack[k.val]).toNat ≤ 0x1000

/-- The parts of the state: the columns of 10_state.md R27, and the model's own `draws`. -/
inductive Part where
  | v
  | i
  | pc
  | stack
  | dt
  | st
  | fb
  | key
  | mem
  | draws
  deriving DecidableEq, Repr

/-- The part has the same content in both states; memory is compared byte by byte. -/
def Part.Same (p : Part) (s t : State) : Prop :=
  match p with
  | .v => ∀ x : Reg, t.getV x = s.getV x
  | .i => t.i = s.i
  | .pc => t.pc = s.pc
  | .stack => t.sp = s.sp ∧ t.stack = s.stack
  | .dt => t.dt = s.dt
  | .st => t.st = s.st
  | .fb => ∀ (x : Fin 64) (y : Fin 32), t.fb.pixel x y = s.fb.pixel x y
  | .key => ∀ k : Fin 16, t.getKey k = s.getKey k
  | .mem => ∀ a : Nat, t.byteAt a = s.byteAt a
  | .draws => t.draws = s.draws

/-- Every part not named is unchanged: the frame rule (00_scope.md R11 a). -/
def OnlyChanges (ps : List Part) (s t : State) : Prop := ∀ p : Part, p ∉ ps → p.Same s t

/-- The parts an instruction may write: the W entries of 10_state.md R27 (pc is every instruction's). -/
def mayWrite : Instr → List Part
  | .i00E0 => [.pc, .fb]
  | .i00EE | .i2NNN _ => [.pc, .stack]
  | .i1NNN _ | .i3XNN _ _ | .i4XNN _ _ | .i5XY0 _ _ | .i9XY0 _ _ | .iBNNN _ | .iEX9E _ | .iEXA1 _ => [.pc]
  | .i6XNN _ _ | .i7XNN _ _ | .i8XY0 _ _ | .i8XY1 _ _ | .i8XY2 _ _ | .i8XY3 _ _ | .i8XY4 _ _ | .i8XY5 _ _ => [.v, .pc]
  | .i8XY6 _ _ | .i8XY7 _ _ | .i8XYE _ _ | .iFX07 _ | .iFX0A _ | .iFX65 _ => [.v, .pc]
  | .iCXNN _ _ => [.v, .pc, .draws]
  | .iANNN _ | .iFX1E _ | .iFX29 _ => [.i, .pc]
  | .iDXYN _ _ _ => [.v, .pc, .fb]
  | .iFX15 _ => [.pc, .dt]
  | .iFX18 _ => [.pc, .st]
  | .iFX33 _ | .iFX55 _ => [.pc, .mem]

/-- The instructions that write VF as a flag: exactly six (10_state.md R14). -/
def writesFlag : Instr → Bool
  | .i8XY4 _ _ | .i8XY5 _ _ | .i8XY6 _ _ | .i8XY7 _ _ | .i8XYE _ _ | .iDXYN _ _ _ => true
  | .i00E0 | .i00EE | .i1NNN _ | .i2NNN _ | .i3XNN _ _ | .i4XNN _ _ | .i5XY0 _ _ | .i6XNN _ _ | .i7XNN _ _ => false
  | .i8XY0 _ _ | .i8XY1 _ _ | .i8XY2 _ _ | .i8XY3 _ _ | .i9XY0 _ _ | .iANNN _ | .iBNNN _ | .iCXNN _ _ => false
  | .iEX9E _ | .iEXA1 _ | .iFX07 _ | .iFX0A _ | .iFX15 _ | .iFX18 _ | .iFX1E _ | .iFX29 _ => false
  | .iFX33 _ | .iFX55 _ | .iFX65 _ => false

/-- The register an instruction writes as a plain destination, where it has one besides a flag or a block (R14): X of
6XNN, 7XNN, 8XY0 to 8XY3, CXNN, FX07 and FX0A; FX65 writes VF as a plain destination when X = F. -/
def plainDest : Instr → Option Reg
  | .i6XNN x _ | .i7XNN x _ | .i8XY0 x _ | .i8XY1 x _ | .i8XY2 x _ | .i8XY3 x _ | .iCXNN x _ => some x
  | .iFX07 x | .iFX0A x | .iFX65 x => some x
  | .i00E0 | .i00EE | .i1NNN _ | .i2NNN _ | .i3XNN _ _ | .i4XNN _ _ | .i5XY0 _ _ | .i9XY0 _ _ | .iANNN _ | .iBNNN _ => none
  | .i8XY4 _ _ | .i8XY5 _ _ | .i8XY6 _ _ | .i8XY7 _ _ | .i8XYE _ _ | .iDXYN _ _ _ => none
  | .iEX9E _ | .iEXA1 _ | .iFX15 _ | .iFX18 _ | .iFX1E _ | .iFX29 _ | .iFX33 _ | .iFX55 _ => none

/-- The number `n` is the instruction's opcode: the decoder reads the instruction from it. -/
def EncodedAs (i : Instr) (n : Nat) : Prop := decodeWord (BitVec.ofNat 16 n) = some i

/-- The sprite's wrapped image: pixel (x, y) is a set bit of the sprite drawn at (x0, y0) (44_display.md R94, R95 b).
Sprite row r and column c land on (x, y) when r and c are the distances from (x0, y0), taken round the edges. -/
def spriteImage (x0 y0 : Byte) (sprite : List Byte) (x : Fin 64) (y : Fin 32) : Bool :=
  let c := (x.val + 256 - x0.toNat) % 64
  let r := (y.val + 256 - y0.toNat) % 32
  decide (c < 8) && (sprite.getD r 0).getLsbD (7 - c)

end Sys2Proof.Safety
end

