-- ==== Sys2Proof/Certificates/Slice0/Obligations.lean ====
section
/-! DEFINITION. The statements for the provers. `OnlyChanges ps s t` (Safety.lean) is the frame: every part of the state
not named in `ps` is unchanged, memory byte by byte. `EncodedAs i n` says that the decoder reads `i` from the opcode `n`. -/

open Sys2Proof Sys2Proof.Machine Sys2Proof.Safety

/-! ### Encoding -/

/-- Decode of encode is the identity on every instruction and every operand value (30_encoding.md R46, R50). -/
def Obligations.DecodeOfEncode : Prop := ∀ i : Instr, decodeWord (encode i) = some i

/-- Encode of decode is the identity on every word that is an instruction (R46, R50). -/
def Obligations.EncodeOfDecode : Prop := ∀ (w : Word) (i : Instr), decodeWord w = some i → encode i = w

/-- The decode function of R50 and the opcode map of R51 agree: a decoded word matches its instruction's row, and a
word that matches a row decodes to that row's instruction. That families 0 and 9 are tested in every fixed bit is the
spec's own decision D8 (log entry 12). -/
def Obligations.DecodeAgreesWithOpcodeMap : Prop :=
  (∀ (w : Word) (i : Instr), decodeWord w = some i →
    rowOf i ∈ opcodeTable ∧ w &&& (rowOf i).mask = (rowOf i).pattern) ∧
  (∀ (w : Word), ∀ r ∈ opcodeTable, w &&& r.mask = r.pattern → ∃ i, decodeWord w = some i ∧ rowOf i = r)

/-- The extent of the unknown-opcode space, family by family (R49, R52); in families 0 and 9 by the spec's own decision
D8 (log entry 12). -/
def Obligations.UnknownOpcodeExtent : Prop :=
  ∀ w : Word, decodeWord w = none ↔
    (w.toNat / 0x1000 = 0x0 ∧ w.toNat ≠ 0x00E0 ∧ w.toNat ≠ 0x00EE) ∨
    (w.toNat / 0x1000 = 0x5 ∧ w.toNat % 0x10 ≠ 0) ∨
    (w.toNat / 0x1000 = 0x8 ∧ w.toNat % 0x10 ∉ [0x0, 0x1, 0x2, 0x3, 0x4, 0x5, 0x6, 0x7, 0xE]) ∨
    (w.toNat / 0x1000 = 0x9 ∧ w.toNat % 0x10 ≠ 0) ∨
    (w.toNat / 0x1000 = 0xE ∧ w.toNat % 0x100 ∉ [0x9E, 0xA1]) ∨
    (w.toNat / 0x1000 = 0xF ∧ w.toNat % 0x100 ∉ [0x07, 0x0A, 0x15, 0x18, 0x1E, 0x29, 0x33, 0x55, 0x65])

/-- A few words written out from the encodings of R51, of every family of instructions. -/
def Obligations.SampleWordsDecode : Prop :=
  decodeWord 0b0000000011101110#16 = some .i00EE ∧
  decodeWord 0b0011101000000101#16 = some (.i3XNN 0xA 0x05) ∧
  decodeWord 0b0111101011111111#16 = some (.i7XNN 0xA 0xFF) ∧
  decodeWord 0b1000000100100111#16 = some (.i8XY7 0x1 0x2) ∧
  decodeWord 0b1010001011110000#16 = some (.iANNN 0x2F0) ∧
  decodeWord 0b1101000000010101#16 = some (.iDXYN 0x0 0x1 0x5) ∧
  decodeWord 0b1110010110011110#16 = some (.iEX9E 0x5) ∧
  decodeWord 0b1111001001010101#16 = some (.iFX55 0x2)

/-! ### The step -/

/-- A step runs the decoded instruction: nothing is added around exec (40_machine_cycle.md R59). -/
def Obligations.StepRunsDecodedInstruction : Prop :=
  ∀ (s : State) (op : Word) (i : Instr), fetch s = .ok op → decodeWord op = some i → step s = exec i s

/-- Fetch: big-endian at any pc up to 0xFFE, at any parity; above it the fetch fault with no successor state (R57,
20_memory.md R30; the fault is the spec's own decision D2, log entry 7, the parity D3, log entry 10). -/
def Obligations.FetchIsBigEndianOrFaults : Prop :=
  (∀ s : State, s.pc.toNat ≤ 0xFFE → ∃ op : Word, fetch s = .ok op ∧
    op.toNat = 256 * (s.byteAt s.pc.toNat).toNat + (s.byteAt (s.pc.toNat + 1)).toNat) ∧
  (∀ s : State, 0xFFE < s.pc.toNat →
    step s = .fault (.addressFault .fetch (if 0xFFF < s.pc.toNat then s.pc.toNat else 0x1000)))

/-- The unknown opcode: pc + 2, nothing else, and the report of the word (R61). -/
def Obligations.UnknownOpcodeAdvances : Prop :=
  ∀ (s : State) (op : Word), fetch s = .ok op → decodeWord op = none →
    ∃ t, step s = .next t ∧ t.pc = s.pc + 2 ∧ OnlyChanges [.pc] s t ∧ stepReport s = .unknownOpcode op

/-- The step is never refused: it has a next state, or one of the two out-of-spec faults (60_exceptions.md R112; the
faults are the spec's own decisions D1, D2 and D10, log entry 7). -/
def Obligations.StepIsNeverRefused : Prop :=
  ∀ s : State, (∃ t, step s = .next t) ∨ (∃ k a, step s = .fault (.addressFault k a)) ∨
    (∃ v, step s = .fault (.keyIndexFault v))

/-- Only these instructions fault, and with these faults: DXYN and FX65 on reads, FX33 and FX55 on writes, EX9E and
EXA1 on the key index (R112; the spec's own decisions D1 and D10, log entry 7). -/
def Obligations.OnlyListedInstructionsFault : Prop :=
  ∀ (i : Instr) (s : State) (f : Fault), exec i s = .fault f →
    ((∃ a, f = .addressFault .read a ∧ 0x1000 ≤ a) ∧ ((∃ x y n, i = .iDXYN x y n) ∨ ∃ x, i = .iFX65 x)) ∨
    ((∃ a, f = .addressFault .write a ∧ 0x1000 ≤ a) ∧ ((∃ x, i = .iFX33 x) ∨ ∃ x, i = .iFX55 x)) ∨
    (∃ x, f = .keyIndexFault (s.getV x) ∧ 15 < (s.getV x).toNat ∧ (i = .iEX9E x ∨ i = .iEXA1 x))

/-- What a step reports is what it does: one clause per outcome of R62. That the report is computed beside the state is
the model's form (log entry 6). -/
def Obligations.ReportMatchesStep : Prop :=
  ∀ s : State,
    (stepReport s = .normal → ∃ t i, step s = .next t ∧ instrAt s = some i) ∧
    (∀ op, stepReport s = .unknownOpcode op →
      fetch s = .ok op ∧ decodeWord op = none ∧ ∃ t, step s = .next t ∧ t.pc = s.pc + 2 ∧ OnlyChanges [.pc] s t) ∧
    (stepReport s = .stackOverflow → step s = .next s ∧ s.sp.val = 16 ∧ ∃ nnn, instrAt s = some (.i2NNN nnn)) ∧
    (stepReport s = .stackUnderflow → step s = .next s ∧ s.sp.val = 0 ∧ instrAt s = some .i00EE) ∧
    (∀ k a, stepReport s = .addressFault k a ↔ step s = .fault (.addressFault k a)) ∧
    (∀ v, stepReport s = .keyIndexFault v ↔ step s = .fault (.keyIndexFault v))

/-! ### Control transfer -/

/-- 1NNN: pc is NNN, nothing else changes (41_flow.md R66). -/
def Obligations.JumpSetsPc : Prop :=
  ∀ (nnn : Addr12) (s : State), EncodedAs (.i1NNN nnn) (0x1000 + nnn.toNat) ∧
    ∃ t, exec (.i1NNN nnn) s = .next t ∧ t.pc.toNat = nnn.toNat ∧ OnlyChanges [.pc] s t

/-- BNNN: pc is the 16-bit sum NNN + V0, which never wraps and is not masked (R72; not masking is the spec's own
decision D3, log entry 10). -/
def Obligations.IndexedJumpAddsV0 : Prop :=
  ∀ (nnn : Addr12) (s : State), EncodedAs (.iBNNN nnn) (0xB000 + nnn.toNat) ∧
    ∃ t, exec (.iBNNN nnn) s = .next t ∧ t.pc.toNat = nnn.toNat + (s.getV 0).toNat ∧ OnlyChanges [.pc] s t

/-- 2NNN: below 16 entries it stores pc + 2 at STACK[SP], adds 1 to SP and jumps; with 16 it reports StackOverflow and
changes nothing (R67; the slot's index is the spec's own decision D12, log entry 8). -/
def Obligations.CallPushesReturnAddress : Prop :=
  ∀ (nnn : Addr12) (s : State), EncodedAs (.i2NNN nnn) (0x2000 + nnn.toNat) ∧
    (s.sp.val < 16 → instrReport (.i2NNN nnn) s = .normal ∧
      ∃ t, exec (.i2NNN nnn) s = .next t ∧ t.sp.val = s.sp.val + 1 ∧ t.pc.toNat = nnn.toNat ∧
        (∀ k : Fin 16, t.stack[k.val] = if k.val = s.sp.val then s.pc + 2 else s.stack[k.val]) ∧
        OnlyChanges [.pc, .stack] s t) ∧
    (s.sp.val = 16 → instrReport (.i2NNN nnn) s = .stackOverflow ∧ exec (.i2NNN nnn) s = .next s)

/-- 00EE: with entries it subtracts 1 from SP and jumps to the slot SP then names, which keeps its value; with none it
reports StackUnderflow and changes nothing (R65; the slot's index is the spec's own decision D12, log entry 8). -/
def Obligations.ReturnPopsReturnAddress : Prop :=
  EncodedAs .i00EE 0x00EE ∧
  (∀ (s : State) (k : Fin 16), s.sp.val = k.val + 1 → instrReport .i00EE s = .normal ∧
    ∃ t, exec .i00EE s = .next t ∧ t.sp.val = k.val ∧ t.pc = s.stack[k.val] ∧ t.stack = s.stack ∧
      OnlyChanges [.pc, .stack] s t) ∧
  (∀ s : State, s.sp.val = 0 → instrReport .i00EE s = .stackUnderflow ∧ exec .i00EE s = .next s)

/-- A call and the matching return: pc is the address after the call, SP is as before, and nothing but pc and the
call's slot has changed (R65, R67; the slot's index is the spec's own decision D12, log entry 8). -/
def Obligations.ReturnMatchesCall : Prop :=
  ∀ (nnn : Addr12) (s : State), s.sp.val < 16 →
    ∃ t u, exec (.i2NNN nnn) s = .next t ∧ exec .i00EE t = .next u ∧ u.pc = s.pc + 2 ∧ u.sp = s.sp ∧
      (∀ k : Fin 16, k.val ≠ s.sp.val → u.stack[k.val] = s.stack[k.val]) ∧ OnlyChanges [.pc, .stack] s u

/-- 3XNN and 4XNN: pc + 4 when VX equals, or differs from, NN, else pc + 2 (R68, R69). That the
sum is modulo 65536 is the spec's own decision D3 (40_machine_cycle.md R60, 10_state.md R16; log entry 10). -/
def Obligations.SkipComparesImmediate : Prop :=
  ∀ (x : Reg) (nn : Byte) (s : State),
    EncodedAs (.i3XNN x nn) (0x3000 + 0x100 * x.val + nn.toNat) ∧
    EncodedAs (.i4XNN x nn) (0x4000 + 0x100 * x.val + nn.toNat) ∧
    (∃ t, exec (.i3XNN x nn) s = .next t ∧ OnlyChanges [.pc] s t ∧
      t.pc.toNat = (s.pc.toNat + if s.getV x = nn then 4 else 2) % 0x10000) ∧
    (∃ t, exec (.i4XNN x nn) s = .next t ∧ OnlyChanges [.pc] s t ∧
      t.pc.toNat = (s.pc.toNat + if s.getV x ≠ nn then 4 else 2) % 0x10000)

/-- 5XY0 and 9XY0: pc + 4 when VX equals, or differs from, VY, else pc + 2 (R70, R71). That the
sum is modulo 65536 is the spec's own decision D3 (40_machine_cycle.md R60, 10_state.md R16; log entry 10). -/
def Obligations.SkipComparesRegisters : Prop :=
  ∀ (x y : Reg) (s : State),
    EncodedAs (.i5XY0 x y) (0x5000 + 0x100 * x.val + 0x10 * y.val) ∧
    EncodedAs (.i9XY0 x y) (0x9000 + 0x100 * x.val + 0x10 * y.val) ∧
    (∃ t, exec (.i5XY0 x y) s = .next t ∧ OnlyChanges [.pc] s t ∧
      t.pc.toNat = (s.pc.toNat + if s.getV x = s.getV y then 4 else 2) % 0x10000) ∧
    (∃ t, exec (.i9XY0 x y) s = .next t ∧ OnlyChanges [.pc] s t ∧
      t.pc.toNat = (s.pc.toNat + if s.getV x ≠ s.getV y then 4 else 2) % 0x10000)

/-! ### Register load, arithmetic and logic -/

/-- 6XNN and 8XY0: VX becomes NN, or VY; every other register is unchanged (42_alu.md R74, R76). -/
def Obligations.LoadAndCopyWriteVX : Prop :=
  ∀ (x y : Reg) (nn : Byte) (s : State),
    EncodedAs (.i6XNN x nn) (0x6000 + 0x100 * x.val + nn.toNat) ∧
    EncodedAs (.i8XY0 x y) (0x8000 + 0x100 * x.val + 0x10 * y.val) ∧
    (∃ t, exec (.i6XNN x nn) s = .next t ∧ t.pc = s.pc + 2 ∧ t.getV x = nn ∧
      (∀ r, r ≠ x → t.getV r = s.getV r) ∧ OnlyChanges [.v, .pc] s t) ∧
    (∃ t, exec (.i8XY0 x y) s = .next t ∧ t.pc = s.pc + 2 ∧ t.getV x = s.getV y ∧
      (∀ r, r ≠ x → t.getV r = s.getV r) ∧ OnlyChanges [.v, .pc] s t)

/-- 7XNN: VX becomes the sum modulo 256; no other register changes, VF included (R75). -/
def Obligations.AddImmediateWraps : Prop :=
  ∀ (x : Reg) (nn : Byte) (s : State), EncodedAs (.i7XNN x nn) (0x7000 + 0x100 * x.val + nn.toNat) ∧
    ∃ t, exec (.i7XNN x nn) s = .next t ∧ t.pc = s.pc + 2 ∧
      (t.getV x).toNat = ((s.getV x).toNat + nn.toNat) % 256 ∧
      (∀ r, r ≠ x → t.getV r = s.getV r) ∧ OnlyChanges [.v, .pc] s t

/-- 8XY1, 8XY2, 8XY3: bit by bit the or, and, exclusive or of VX and VY; no other register changes, VF included
(R77, R78, R79). -/
def Obligations.LogicIsBitwise : Prop :=
  ∀ (x y : Reg) (s : State),
    EncodedAs (.i8XY1 x y) (0x8001 + 0x100 * x.val + 0x10 * y.val) ∧
    EncodedAs (.i8XY2 x y) (0x8002 + 0x100 * x.val + 0x10 * y.val) ∧
    EncodedAs (.i8XY3 x y) (0x8003 + 0x100 * x.val + 0x10 * y.val) ∧
    (∃ t, exec (.i8XY1 x y) s = .next t ∧ t.pc = s.pc + 2 ∧
      (∀ k < 8, (t.getV x).getLsbD k = ((s.getV x).getLsbD k || (s.getV y).getLsbD k)) ∧
      (∀ r, r ≠ x → t.getV r = s.getV r) ∧ OnlyChanges [.v, .pc] s t) ∧
    (∃ t, exec (.i8XY2 x y) s = .next t ∧ t.pc = s.pc + 2 ∧
      (∀ k < 8, (t.getV x).getLsbD k = ((s.getV x).getLsbD k && (s.getV y).getLsbD k)) ∧
      (∀ r, r ≠ x → t.getV r = s.getV r) ∧ OnlyChanges [.v, .pc] s t) ∧
    (∃ t, exec (.i8XY3 x y) s = .next t ∧ t.pc = s.pc + 2 ∧
      (∀ k < 8, (t.getV x).getLsbD k = ((s.getV x).getLsbD k ^^ (s.getV y).getLsbD k)) ∧
      (∀ r, r ≠ x → t.getV r = s.getV r) ∧ OnlyChanges [.v, .pc] s t)

/-- 8XY4: VX the low 8 bits of the sum, VF 1 when the sum exceeds 255, else 0; the flag wins when X = F (R80; the
last clause is the spec's own decision D5, log entry 9). -/
def Obligations.AddSetsCarry : Prop :=
  ∀ (x y : Reg) (s : State), EncodedAs (.i8XY4 x y) (0x8004 + 0x100 * x.val + 0x10 * y.val) ∧
    ∃ t, exec (.i8XY4 x y) s = .next t ∧ t.pc = s.pc + 2 ∧
      (t.getV 15).toNat = (if (s.getV x).toNat + (s.getV y).toNat > 255 then 1 else 0) ∧
      (x ≠ 15 → (t.getV x).toNat = ((s.getV x).toNat + (s.getV y).toNat) % 256) ∧
      (∀ r, r ≠ x → r ≠ 15 → t.getV r = s.getV r) ∧ OnlyChanges [.v, .pc] s t

/-- 8XY5 and 8XY7: VX the difference modulo 256, VF 1 when there is no borrow, else 0; the flag wins when X = F
(R81, R83; the last clause is the spec's own decision D5, log entry 9). -/
def Obligations.SubtractSetsNoBorrow : Prop :=
  ∀ (x y : Reg) (s : State),
    EncodedAs (.i8XY5 x y) (0x8005 + 0x100 * x.val + 0x10 * y.val) ∧
    EncodedAs (.i8XY7 x y) (0x8007 + 0x100 * x.val + 0x10 * y.val) ∧
    (∃ t, exec (.i8XY5 x y) s = .next t ∧ t.pc = s.pc + 2 ∧
      (t.getV 15).toNat = (if (s.getV x).toNat ≥ (s.getV y).toNat then 1 else 0) ∧
      (x ≠ 15 → (t.getV x).toNat = ((s.getV x).toNat + 256 - (s.getV y).toNat) % 256) ∧
      (∀ r, r ≠ x → r ≠ 15 → t.getV r = s.getV r) ∧ OnlyChanges [.v, .pc] s t) ∧
    (∃ t, exec (.i8XY7 x y) s = .next t ∧ t.pc = s.pc + 2 ∧
      (t.getV 15).toNat = (if (s.getV y).toNat ≥ (s.getV x).toNat then 1 else 0) ∧
      (x ≠ 15 → (t.getV x).toNat = ((s.getV y).toNat + 256 - (s.getV x).toNat) % 256) ∧
      (∀ r, r ≠ x → r ≠ 15 → t.getV r = s.getV r) ∧ OnlyChanges [.v, .pc] s t)

/-- 8XY6 and 8XYE: VX shifted by one in place, whatever Y is, VF the bit shifted out; the flag wins when X = F
(R82, R84; the last clause is the spec's own decision D5, log entry 9). -/
def Obligations.ShiftMovesOneBitOut : Prop :=
  ∀ (x y : Reg) (s : State),
    EncodedAs (.i8XY6 x y) (0x8006 + 0x100 * x.val + 0x10 * y.val) ∧
    EncodedAs (.i8XYE x y) (0x800E + 0x100 * x.val + 0x10 * y.val) ∧
    (∃ t, exec (.i8XY6 x y) s = .next t ∧ t.pc = s.pc + 2 ∧ (t.getV 15).toNat = (s.getV x).toNat % 2 ∧
      (x ≠ 15 → (t.getV x).toNat = (s.getV x).toNat / 2) ∧
      (∀ r, r ≠ x → r ≠ 15 → t.getV r = s.getV r) ∧ OnlyChanges [.v, .pc] s t) ∧
    (∃ t, exec (.i8XYE x y) s = .next t ∧ t.pc = s.pc + 2 ∧ (t.getV 15).toNat = (s.getV x).toNat / 128 ∧
      (x ≠ 15 → (t.getV x).toNat = (s.getV x).toNat * 2 % 256) ∧
      (∀ r, r ≠ x → r ≠ 15 → t.getV r = s.getV r) ∧ OnlyChanges [.v, .pc] s t)

/-- CXNN: VX is the drawn byte, whatever it is, and NN; the next draw is a fresh one (R85; the free value and the
counter `draws` are the model's form of it, log entry 3). -/
def Obligations.RandomByteIsMasked : Prop :=
  ∀ (x : Reg) (nn : Byte) (s : State), EncodedAs (.iCXNN x nn) (0xC000 + 0x100 * x.val + nn.toNat) ∧
    ∃ t, exec (.iCXNN x nn) s = .next t ∧ t.pc = s.pc + 2 ∧
      (∀ k < 8, (t.getV x).getLsbD k = ((Config.freeByte s.draws).getLsbD k && nn.getLsbD k)) ∧
      t.getV x &&& ~~~nn = 0 ∧ t.draws = s.draws + 1 ∧
      (∀ r, r ≠ x → t.getV r = s.getV r) ∧ OnlyChanges [.v, .pc, .draws] s t

/-- The six flag writers leave 0 or 1 in VF, and no other instruction changes VF unless VF is its plain destination
(10_state.md R14; with X = F the flag is the spec's own decision D5, log entry 9). -/
def Obligations.FlagWritersAreSix : Prop :=
  ∀ (i : Instr) (s t : State), exec i s = .next t →
    (writesFlag i = true → t.getV 15 = 0 ∨ t.getV 15 = 1) ∧
    (writesFlag i = false → plainDest i ≠ some 15 → t.getV 15 = s.getV 15)

/-! ### Index register and memory transfer -/

/-- ANNN: I is NNN, bits 15 to 12 zero (43_index_memory.md R87). -/
def Obligations.LoadIndexSetsI : Prop :=
  ∀ (nnn : Addr12) (s : State), EncodedAs (.iANNN nnn) (0xA000 + nnn.toNat) ∧
    ∃ t, exec (.iANNN nnn) s = .next t ∧ t.pc = s.pc + 2 ∧ t.i.toNat = nnn.toNat ∧ OnlyChanges [.i, .pc] s t

/-- FX1E: I is the 16-bit sum of I and VX; no register changes, VF included (R88). -/
def Obligations.AddIndexWrapsAt16Bits : Prop :=
  ∀ (x : Reg) (s : State), EncodedAs (.iFX1E x) (0xF01E + 0x100 * x.val) ∧
    ∃ t, exec (.iFX1E x) s = .next t ∧ t.pc = s.pc + 2 ∧
      t.i.toNat = (s.i.toNat + (s.getV x).toNat) % 0x10000 ∧ OnlyChanges [.i, .pc] s t

/-- FX29: I is the address of the glyph of a digit; above 15 it is the open parameter's value (R89; the
free function is the model's form of the parameter, log entry 4). -/
def Obligations.GlyphAddressOfDigit : Prop :=
  ∀ (x : Reg) (s : State), EncodedAs (.iFX29 x) (0xF029 + 0x100 * x.val) ∧
    ∃ t, exec (.iFX29 x) s = .next t ∧ t.pc = s.pc + 2 ∧ OnlyChanges [.i, .pc] s t ∧
      ((s.getV x).toNat ≤ 0x0F → t.i.toNat = 0x0050 + 5 * (s.getV x).toNat) ∧
      (0x0F < (s.getV x).toNat → t.i = Config.fx29High (s.getV x))

/-- FX33: hundreds, tens and ones of VX at I, I + 1, I + 2, every other byte unchanged; out of range it faults and has
no other effect (R90; the fault is the spec's own decision D1, log entry 7, I unchanged D6, log entry 14). -/
def Obligations.StoreDecimalDigits : Prop :=
  ∀ (x : Reg) (s : State), EncodedAs (.iFX33 x) (0xF033 + 0x100 * x.val) ∧
    (s.i.toNat + 2 ≤ 0xFFF → ∃ t, exec (.iFX33 x) s = .next t ∧ t.pc = s.pc + 2 ∧
      (t.byteAt (s.effAddr 0)).toNat = (s.getV x).toNat / 100 ∧
      (t.byteAt (s.effAddr 1)).toNat = (s.getV x).toNat / 10 % 10 ∧
      (t.byteAt (s.effAddr 2)).toNat = (s.getV x).toNat % 10 ∧
      (∀ a, (a < s.effAddr 0 ∨ s.effAddr 2 < a) → t.byteAt a = s.byteAt a) ∧ OnlyChanges [.pc, .mem] s t) ∧
    (0xFFF < s.i.toNat + 2 → exec (.iFX33 x) s = .fault (.addressFault .write (max s.i.toNat 0x1000)))

/-- FX55: Vk at I + k for k up to X, every other byte, every register and I unchanged; out of range it faults and has
no other effect (R91; the fault is the spec's own decision D1, log entry 7, I unchanged D6, log entry 14). -/
def Obligations.StoreRegisterBlock : Prop :=
  ∀ (x : Reg) (s : State), EncodedAs (.iFX55 x) (0xF055 + 0x100 * x.val) ∧
    (s.i.toNat + x.val ≤ 0xFFF → ∃ t, exec (.iFX55 x) s = .next t ∧ t.pc = s.pc + 2 ∧
      (∀ k : Reg, k ≤ x → t.byteAt (s.effAddr k.val) = s.getV k) ∧
      (∀ a, (a < s.effAddr 0 ∨ s.effAddr x.val < a) → t.byteAt a = s.byteAt a) ∧ OnlyChanges [.pc, .mem] s t) ∧
    (0xFFF < s.i.toNat + x.val → exec (.iFX55 x) s = .fault (.addressFault .write (max s.i.toNat 0x1000)))

/-- FX65: the byte at I + k in Vk for k up to X, the registers above VX, memory and I unchanged; out of range it faults
and has no other effect (R92; the fault is the spec's own decision D1, log entry 7, I unchanged D6, log entry 14). -/
def Obligations.LoadRegisterBlock : Prop :=
  ∀ (x : Reg) (s : State), EncodedAs (.iFX65 x) (0xF065 + 0x100 * x.val) ∧
    (s.i.toNat + x.val ≤ 0xFFF → ∃ t, exec (.iFX65 x) s = .next t ∧ t.pc = s.pc + 2 ∧
      (∀ k : Reg, k ≤ x → t.getV k = s.byteAt (s.effAddr k.val)) ∧
      (∀ k : Reg, x < k → t.getV k = s.getV k) ∧ OnlyChanges [.v, .pc] s t) ∧
    (0xFFF < s.i.toNat + x.val → exec (.iFX65 x) s = .fault (.addressFault .read (max s.i.toNat 0x1000)))

/-- A block stored by FX55 and loaded back by FX65, in any state with that memory and I, comes back register by
register (R91, R92; both leave I alone by the spec's own decision D6, log entry 14). -/
def Obligations.BlockLoadReturnsBlockStore : Prop :=
  ∀ (x : Reg) (s u : State), s.i.toNat + x.val ≤ 0xFFF →
    ∃ t, exec (.iFX55 x) s = .next t ∧
      (u.mem = t.mem → u.i = t.i →
        ∃ w, exec (.iFX65 x) u = .next w ∧
          ∀ k : Reg, (k ≤ x → w.getV k = s.getV k) ∧ (x < k → w.getV k = u.getV k))

/-- Self-modifying code: an FX55 over the next instruction's two bytes is what the next fetch reads (20_memory.md
R42). -/
def Obligations.StoredCodeIsFetchedNext : Prop :=
  ∀ (x : Reg) (s : State), 1 ≤ x.val → s.i = s.pc + 2 → s.i.toNat + x.val ≤ 0xFFF →
    ∃ t op, exec (.iFX55 x) s = .next t ∧ fetch t = .ok op ∧ op.toNat = 256 * (s.getV 0).toNat + (s.getV 1).toNat

/-! ### Display -/

/-- 00E0: every pixel 0; no register changes, VF included (44_display.md R93). -/
def Obligations.ClearTurnsEveryPixelOff : Prop :=
  EncodedAs .i00E0 0x00E0 ∧
  ∀ s : State, ∃ t, exec .i00E0 s = .next t ∧ t.pc = s.pc + 2 ∧
    (∀ (a : Fin 64) (b : Fin 32), t.fb.pixel a b = false) ∧ OnlyChanges [.pc, .fb] s t

/-- DXYN, sprite bit by sprite bit: bit 7 - c of byte r is exclusive-ored into the pixel at ((VX + c) mod 64,
(VY + r) mod 32), pixels no sprite bit lands on are unchanged, VF is the collision; N = 0 needs no memory; out of range
it faults and has no other effect (R94; the shape of a sprite is from general knowledge, D13, log entry 11, the fault the
spec's own decision D1, log entry 7). -/
def Obligations.DrawTogglesSetBits : Prop :=
  ∀ (x y : Reg) (n : Nibble) (s : State),
    EncodedAs (.iDXYN x y n) (0xD000 + 0x100 * x.val + 0x10 * y.val + n.toNat) ∧
    ((n.toNat = 0 ∨ s.i.toNat + n.toNat ≤ 0x1000) → ∃ t, exec (.iDXYN x y n) s = .next t ∧ t.pc = s.pc + 2 ∧
      (∀ r < n.toNat, ∀ c < 8, ∀ (a : Fin 64) (b : Fin 32),
        a.val = ((s.getV x).toNat + c) % 64 → b.val = ((s.getV y).toNat + r) % 32 →
        t.fb.pixel a b = (s.fb.pixel a b ^^ (s.byteAt (s.effAddr r)).getLsbD (7 - c))) ∧
      (∀ (a : Fin 64) (b : Fin 32),
        (∀ r < n.toNat, ∀ c < 8, ¬(a.val = ((s.getV x).toNat + c) % 64 ∧ b.val = ((s.getV y).toNat + r) % 32)) →
        t.fb.pixel a b = s.fb.pixel a b) ∧
      ((∃ r < n.toNat, ∃ c < 8, ∃ (a : Fin 64) (b : Fin 32),
          a.val = ((s.getV x).toNat + c) % 64 ∧ b.val = ((s.getV y).toNat + r) % 32 ∧
          (s.byteAt (s.effAddr r)).getLsbD (7 - c) = true ∧ s.fb.pixel a b = true) →
        t.getV 15 = 1) ∧
      ((∀ r < n.toNat, ∀ c < 8, ∀ (a : Fin 64) (b : Fin 32),
          a.val = ((s.getV x).toNat + c) % 64 → b.val = ((s.getV y).toNat + r) % 32 →
          (s.byteAt (s.effAddr r)).getLsbD (7 - c) = true → s.fb.pixel a b = false) →
        t.getV 15 = 0) ∧
      (∀ r, r ≠ 15 → t.getV r = s.getV r) ∧ OnlyChanges [.v, .pc, .fb] s t) ∧
    (1 ≤ n.toNat → 0x1000 < s.i.toNat + n.toNat →
      exec (.iDXYN x y n) s = .fault (.addressFault .read (max s.i.toNat 0x1000)))

/-- DXYN is the exclusive-or of the framebuffer with the sprite's wrapped image, all at once, and VF says whether the
image met a pixel that was on (R95 a, b; the shape of a sprite is from general knowledge, D13, log entry 11). -/
def Obligations.DrawIsXorWithImage : Prop :=
  ∀ (x y : Reg) (n : Nibble) (s t : State), exec (.iDXYN x y n) s = .next t →
    (∀ (a : Fin 64) (b : Fin 32), t.fb.pixel a b =
      (s.fb.pixel a b ^^ spriteImage (s.getV x) (s.getV y) (s.mem.readBytes (s.effAddr 0) n.toNat) a b)) ∧
    (t.getV 15 = 1 ↔ ∃ (a : Fin 64) (b : Fin 32),
      spriteImage (s.getV x) (s.getV y) (s.mem.readBytes (s.effAddr 0) n.toNat) a b = true ∧ s.fb.pixel a b = true)

/-- The same sprite drawn twice at the same place restores the framebuffer; if the first draw met no pixel that was on
and the sprite has a set bit, the second draw reports a collision (R95 c, d; the shape of a sprite is from general
knowledge, D13, log entry 11). -/
def Obligations.DrawTwiceRestores : Prop :=
  ∀ (x y : Reg) (n : Nibble) (s : State), x ≠ 15 → y ≠ 15 → (n.toNat = 0 ∨ s.i.toNat + n.toNat ≤ 0x1000) →
    ∃ t u, exec (.iDXYN x y n) s = .next t ∧ exec (.iDXYN x y n) t = .next u ∧
      (∀ (a : Fin 64) (b : Fin 32), u.fb.pixel a b = s.fb.pixel a b) ∧
      (t.getV 15 = 0 → (∃ r < n.toNat, ∃ c < 8, (s.byteAt (s.effAddr r)).getLsbD c = true) → u.getV 15 = 1)

/-! ### Keypad and timers -/

/-- EX9E and EXA1: a skip on the state of the key VX numbers; above 15 KeyIndexFault (45_keypad_timers.md R96,
R97; the fault is the spec's own decision D10, log entry 7). That the sum on pc is modulo 65536 is the spec's own
decision D3 (40_machine_cycle.md R60, 10_state.md R16; log entry 10). -/
def Obligations.SkipTestsKey : Prop :=
  ∀ (x : Reg) (s : State), EncodedAs (.iEX9E x) (0xE09E + 0x100 * x.val) ∧
    EncodedAs (.iEXA1 x) (0xE0A1 + 0x100 * x.val) ∧
    (∀ k : Fin 16, (s.getV x).toNat = k.val →
      (∃ t, exec (.iEX9E x) s = .next t ∧ OnlyChanges [.pc] s t ∧
        t.pc.toNat = (s.pc.toNat + if s.getKey k = true then 4 else 2) % 0x10000) ∧
      (∃ t, exec (.iEXA1 x) s = .next t ∧ OnlyChanges [.pc] s t ∧
        t.pc.toNat = (s.pc.toNat + if s.getKey k = false then 4 else 2) % 0x10000)) ∧
    (15 < (s.getV x).toNat → exec (.iEX9E x) s = .fault (.keyIndexFault (s.getV x)) ∧
      exec (.iEXA1 x) s = .fault (.keyIndexFault (s.getV x)))

/-- FX0A: with keys down VX is the least index; with none nothing changes at all, pc included (R98; that a
held step reports Normal is the spec's own decision D17, log entry 16). -/
def Obligations.WaitTakesLowestKey : Prop :=
  ∀ (x : Reg) (s : State), EncodedAs (.iFX0A x) (0xF00A + 0x100 * x.val) ∧ instrReport (.iFX0A x) s = .normal ∧
    (∀ k : Fin 16, s.getKey k = true → (∀ j : Fin 16, j < k → s.getKey j = false) →
      ∃ t, exec (.iFX0A x) s = .next t ∧ t.pc = s.pc + 2 ∧ (t.getV x).toNat = k.val ∧
        (∀ r, r ≠ x → t.getV r = s.getV r) ∧ OnlyChanges [.v, .pc] s t) ∧
    ((∀ k : Fin 16, s.getKey k = false) → exec (.iFX0A x) s = .next s)

/-- FX07, FX15, FX18: VX is DT, DT is VX, ST is VX, and none of the three counts a timer down (R99, R100, R101); that no
step does is StepLeavesKeysAndTimers. -/
def Obligations.TimerMoves : Prop :=
  ∀ (x : Reg) (s : State), EncodedAs (.iFX07 x) (0xF007 + 0x100 * x.val) ∧
    EncodedAs (.iFX15 x) (0xF015 + 0x100 * x.val) ∧ EncodedAs (.iFX18 x) (0xF018 + 0x100 * x.val) ∧
    (∃ t, exec (.iFX07 x) s = .next t ∧ t.pc = s.pc + 2 ∧ t.getV x = s.dt ∧
      (∀ r, r ≠ x → t.getV r = s.getV r) ∧ OnlyChanges [.v, .pc] s t) ∧
    (∃ t, exec (.iFX15 x) s = .next t ∧ t.pc = s.pc + 2 ∧ t.dt = s.getV x ∧ OnlyChanges [.pc, .dt] s t) ∧
    (∃ t, exec (.iFX18 x) s = .next t ∧ t.pc = s.pc + 2 ∧ t.st = s.getV x ∧ OnlyChanges [.pc, .st] s t)

/-! ### The whole machine -/

/-- The state after reset, for any font table: the values of 10_state.md R25 and R26. The zeros outside the font
table are the spec's own decision D11 (log entry 2), those of the stack slots D12 (log entry 8), and the default font
is log entry 1. -/
def Obligations.ResetStateValues : Prop :=
  ∀ font : Vector Byte 80,
    (∀ x : Reg, (State.resetWith font).getV x = 0x00) ∧ (State.resetWith font).i = 0x0000 ∧
    (State.resetWith font).pc = 0x0200 ∧ (State.resetWith font).sp.val = 0 ∧
    (∀ k : Fin 16, (State.resetWith font).stack[k.val] = 0x0000) ∧ (State.resetWith font).dt = 0x00 ∧
    (State.resetWith font).st = 0x00 ∧
    (∀ (a : Fin 64) (b : Fin 32), (State.resetWith font).fb.pixel a b = false) ∧
    (∀ k : Fin 16, (State.resetWith font).getKey k = false) ∧
    (∀ j : Fin 80, (State.resetWith font).byteAt (0x050 + j.val) = font[j.val]) ∧
    (∀ a : Nat, (a < 0x050 ∨ 0x09F < a) → (State.resetWith font).byteAt a = 0x00) ∧
    State.reset = State.resetWith Config.fontTable

/-- The invariant holds at reset. -/
def Obligations.InvariantAtReset : Prop := Inv State.reset

/-- Every step keeps the invariant, from every state that has it: memory stays canonical, pc never exceeds 0x10FE and
no stack slot exceeds 0x1000 (10_state.md R16; the invariant is the model's own, log entry 18). -/
def Obligations.StepKeepsInvariant : Prop := ∀ s t : State, Inv s → step s = .next t → Inv t

/-- Every history of host operations keeps the invariant (46_host_operations.md R110). -/
def Obligations.HistoryKeepsInvariant : Prop :=
  ∀ (ops : List HostOp) (s t : State), Inv s → history ops s = .next t → Inv t

/-- No instruction writes a part of the state outside its W entries of the access matrix (10_state.md R27). -/
def Obligations.AccessMatrixHolds : Prop :=
  ∀ (i : Instr) (s t : State), exec i s = .next t → OnlyChanges (mayWrite i) s t

/-- No step changes a key, and only FX15 and FX18 change DT and ST (40_machine_cycle.md R63 c, d). -/
def Obligations.StepLeavesKeysAndTimers : Prop :=
  ∀ s t : State, step s = .next t →
    (∀ k : Fin 16, t.getKey k = s.getKey k) ∧
    ((∀ x, instrAt s ≠ some (.iFX15 x)) → t.dt = s.dt) ∧
    ((∀ x, instrAt s ≠ some (.iFX18 x)) → t.st = s.st)

/-- No instruction reads ST: with another value in ST it does the same to everything else (10_state.md R18). -/
def Obligations.NoInstructionReadsST : Prop :=
  ∀ (i : Instr) (s : State) (b : Byte),
    (∀ f, exec i s = .fault f → exec i (s.setST b) = .fault f) ∧
    (∀ t, exec i s = .next t →
      ((∀ x, i ≠ .iFX18 x) → exec i (s.setST b) = .next (t.setST b)) ∧
      (∀ x, i = .iFX18 x → exec i (s.setST b) = .next t))

/-- A stack fault repeats for ever: any number of steps leaves the state as it was (70_reset_and_hazards.md R131). -/
def Obligations.StackFaultRepeats : Prop :=
  ∀ s : State, hung s = true → ∀ n : Nat, history (List.replicate n .stepCycle) s = .next s

/-- An ended program: the jump to itself changes nothing, however often it is stepped (R129; the word ENDED is
the spec's own decision D19, log entry 18). -/
def Obligations.EndedIsFixedPoint : Prop :=
  ∀ s : State, ended s = true → ∀ n : Nat, history (List.replicate n .stepCycle) s = .next s

/-- A held FX0A changes nothing and reports Normal; when the host presses a key, and no lower one is down, the next step
takes it (R130, 45_keypad_timers.md R98; the report Normal is the spec's own decision D17, log entry 16). -/
def Obligations.HeldWaitEndsWithKey : Prop :=
  ∀ s : State, waiting s = true → step s = .next s ∧ stepReport s = .normal ∧
    ∀ k : Fin 16, ∃ x t, instrAt s = some (.iFX0A x) ∧ history [.setKey k.val true, .stepCycle] s = .next t ∧
      (t.getV x).toNat = k.val ∧ t.pc = s.pc + 2

/-! ### Host operations -/

/-- `load`: an accepted buffer is copied to 0x200 upward and nothing else changes; a longer one is refused with
TooLarge and no change (46_host_operations.md R103; any time and any length by the spec's own decision D22, log entry
13). -/
def Obligations.LoadCopiesOrRefuses : Prop :=
  ∀ (bytes : List Byte) (s : State),
    (bytes.length ≤ 3584 → answer (.load bytes) s = .loadOk ∧ ∃ t, perform (.load bytes) s = .next t ∧
      (∀ k : Fin bytes.length, t.byteAt (0x200 + k.val) = bytes[k.val]) ∧
      (∀ a, (a < 0x200 ∨ 0x200 + bytes.length ≤ a) → t.byteAt a = s.byteAt a) ∧ OnlyChanges [.mem] s t) ∧
    (3584 < bytes.length → answer (.load bytes) s = .loadTooLarge ∧ perform (.load bytes) s = .next s)

/-- `tick_timers`, called any number of times in a row: each timer goes down by one a call while above 0
(natural-number subtraction stops at 0), and nothing else changes (R104). -/
def Obligations.TickCountsTimersDown : Prop :=
  ∀ (n : Nat) (s : State), answer .tickTimers s = .nothing ∧
    ∃ t, history (List.replicate n .tickTimers) s = .next t ∧
      t.dt.toNat = s.dt.toNat - n ∧ t.st.toNat = s.st.toNat - n ∧ OnlyChanges [.dt, .st] s t

/-- `set_key`: one key takes the value; an index above 15 is refused with no change (R105; the refusal is the
spec's own decision D24, log entry 13). -/
def Obligations.SetKeyChangesOneKey : Prop :=
  ∀ (index : Nat) (p : Bool) (s : State),
    (∀ k : Fin 16, index = k.val → answer (.setKey index p) s = .nothing ∧
      ∃ t, perform (.setKey index p) s = .next t ∧ t.getKey k = p ∧
        (∀ j : Fin 16, j ≠ k → t.getKey j = s.getKey j) ∧ OnlyChanges [.key] s t) ∧
    (15 < index → answer (.setKey index p) s = .keyIndexRefused ∧ perform (.setKey index p) s = .next s)

/-- `reset`: whatever the state before, every part the spec gives the machine is as after construction; only the model's
own count of random draws goes on (70_reset_and_hazards.md R125, 42_alu.md R85; log entry 3). -/
def Obligations.HostResetRestores : Prop :=
  ∀ s : State, ∃ t, perform .reset s = .next t ∧ OnlyChanges [.draws] State.reset t ∧ t.draws = s.draws

/-- The views change nothing and show what the state holds: element y * 64 + x is FB[x][y] as 0 or 1; the peeks are ST
and DT (46_host_operations.md R107, R108; the order of the view is the spec's own decision D15, log entry 11). -/
def Obligations.ViewsShowState : Prop :=
  ∀ s : State,
    perform .framebuffer s = .next s ∧ perform .soundTimer s = .next s ∧ perform .delayTimer s = .next s ∧
    answer .soundTimer s = .timer s.st ∧ answer .delayTimer s = .timer s.dt ∧
    ∃ view : Vector (BitVec 1) 2048, answer .framebuffer s = .view view ∧
      ∀ (a : Fin 64) (b : Fin 32) (j : Fin 2048), j.val = b.val * 64 + a.val →
        view[j.val] = if s.fb.pixel a b = true then 1 else 0
end

