-- ==== Sys2Proof/Laws/Decode.lean ====
section
/-! SUPPORT. The fields of a word built from its fields, and a word rebuilt from its fields (30_encoding.md R45, R46). -/

namespace Sys2Proof

/-- The high part of two parts put side by side. -/
theorem extract_append_high {n m : Nat} (a : BitVec n) (b : BitVec m) : (a ++ b).extractLsb' m n = a := by
  ext i hi
  simp [BitVec.getElem_extractLsb', BitVec.getLsbD_append, hi]

/-- A field inside the low part of two parts put side by side. -/
theorem extract_append_low {n m : Nat} (a : BitVec n) (b : BitVec m) (k l : Nat) (h : k + l ≤ m) :
    (a ++ b).extractLsb' k l = b.extractLsb' k l := by
  ext i hi
  simp only [BitVec.getElem_extractLsb', BitVec.getLsbD_append]
  rw [if_pos (by omega)]

/-- A field inside the high part of two parts put side by side. -/
theorem extract_append_mid {n m : Nat} (a : BitVec n) (b : BitVec m) (k l : Nat) :
    (a ++ b).extractLsb' (m + k) l = a.extractLsb' k l := by
  ext i hi
  simp only [BitVec.getElem_extractLsb', BitVec.getLsbD_append]
  rw [if_neg (by omega)]
  congr 1
  omega

@[simp] theorem highByte_wordOfBytes (hi lo : Byte) : highByte (wordOfBytes hi lo) = hi := extract_append_high hi lo

@[simp] theorem lowByte_wordOfBytes (hi lo : Byte) : lowByte (wordOfBytes hi lo) = lo := by
  simpa [lowByte, wordOfBytes] using extract_append_low hi lo 0 8 (by omega)

/-- Two fields that touch are one field. -/
theorem extract_append_extract {N : Nat} (w : BitVec N) (k n m : Nat) :
    w.extractLsb' (k + m) n ++ w.extractLsb' k m = w.extractLsb' k (n + m) := by
  ext i hi
  simp only [BitVec.getElem_append, BitVec.getElem_extractLsb']
  split
  · rfl
  · congr 1
    omega

/-- The whole word is the field of all its bits. -/
theorem extract_all {N : Nat} (w : BitVec N) : w.extractLsb' 0 N = w := by
  ext i hi
  simp

/-- A word is its two bytes side by side (20_memory.md R30). -/
@[simp] theorem wordOfBytes_bytes (w : Word) : wordOfBytes (highByte w) (lowByte w) = w :=
  (extract_append_extract w 0 8 8).trans (extract_all w)

@[simp] theorem toFin_regBits (x : Reg) : (regBits x).toFin = x := rfl

section
variable (f : BitVec 4) (nnn : Addr12) (x y : Reg) (nn : Byte) (n : Nibble)

@[simp] theorem fieldF_formatA : fieldF (formatA f nnn) = f := extract_append_high f nnn

@[simp] theorem fieldNNN_formatA : fieldNNN (formatA f nnn) = nnn := by
  simpa [fieldNNN, formatA] using extract_append_low f nnn 0 12 (by omega)

@[simp] theorem fieldF_formatXI : fieldF (formatXI f x nn) = f :=
  (extract_append_mid (f ++ regBits x) nn 4 4).trans (extract_append_high f (regBits x))

@[simp] theorem fieldX_formatXI : fieldX (formatXI f x nn) = x := by
  have h := (extract_append_mid (f ++ regBits x) nn 0 4).trans (extract_append_low f (regBits x) 0 4 (by omega))
  simpa [fieldX, formatXI] using congrArg BitVec.toFin h

@[simp] theorem fieldNN_formatXI : fieldNN (formatXI f x nn) = nn := by
  simpa [fieldNN, formatXI] using extract_append_low (f ++ regBits x) nn 0 8 (by omega)

@[simp] theorem fieldF_formatXYN : fieldF (formatXYN f x y n) = f :=
  (extract_append_mid (f ++ regBits x ++ regBits y) n 8 4).trans
    ((extract_append_mid (f ++ regBits x) (regBits y) 4 4).trans (extract_append_high f (regBits x)))

@[simp] theorem fieldX_formatXYN : fieldX (formatXYN f x y n) = x := by
  have h := (extract_append_mid (f ++ regBits x ++ regBits y) n 4 4).trans
    ((extract_append_mid (f ++ regBits x) (regBits y) 0 4).trans (extract_append_low f (regBits x) 0 4 (by omega)))
  simpa [fieldX, formatXYN] using congrArg BitVec.toFin h

@[simp] theorem fieldY_formatXYN : fieldY (formatXYN f x y n) = y := by
  have h := (extract_append_mid (f ++ regBits x ++ regBits y) n 0 4).trans
    (extract_append_low (f ++ regBits x) (regBits y) 0 4 (by omega))
  simpa [fieldY, formatXYN] using congrArg BitVec.toFin h

@[simp] theorem fieldN_formatXYN : fieldN (formatXYN f x y n) = n := by
  simpa [fieldN, formatXYN] using extract_append_low (f ++ regBits x ++ regBits y) n 0 4 (by omega)

end

/-- A word of format A rebuilt from its fields. -/
theorem formatA_fields (w : Word) : formatA (fieldF w) (fieldNNN w) = w :=
  (extract_append_extract w 0 4 12).trans (extract_all w)

/-- A word of format XI rebuilt from its fields. -/
theorem formatXI_fields (w : Word) : formatXI (fieldF w) (fieldX w) (fieldNN w) = w :=
  (congrArg (· ++ w.extractLsb' 0 8) (extract_append_extract w 8 4 4)).trans
    ((extract_append_extract w 0 8 8).trans (extract_all w))

/-- A word of format XY or XYN rebuilt from its fields. -/
theorem formatXYN_fields (w : Word) : formatXYN (fieldF w) (fieldX w) (fieldY w) (fieldN w) = w :=
  (congrArg (fun u : BitVec 8 => u ++ w.extractLsb' 4 4 ++ w.extractLsb' 0 4) (extract_append_extract w 8 4 4)).trans
    ((congrArg (fun u : BitVec 12 => u ++ w.extractLsb' 0 4) (extract_append_extract w 4 8 4)).trans
      ((extract_append_extract w 0 12 4).trans (extract_all w)))

/-- Format A under the mask of the family nibble. -/
theorem formatA_and_family (f : BitVec 4) (nnn : Addr12) : formatA f nnn &&& 0xF000 = f ++ 0#12 :=
  (BitVec.and_append (x₂ := 0xF#4) (y₂ := 0#12)).trans
    (by rw [show (0xF#4 : BitVec 4) = BitVec.allOnes 4 from rfl, BitVec.and_allOnes, BitVec.and_zero])

/-- Format XI under the mask of the family nibble. -/
theorem formatXI_and_family (f : BitVec 4) (x : Reg) (nn : Byte) : formatXI f x nn &&& 0xF000 = f ++ 0#12 := by
  have h := formatA_and_family f (regBits x ++ nn)
  rw [← h]
  congr 1
  exact BitVec.append_assoc ..

/-- Format XI under the mask of the family nibble and the low byte. -/
theorem formatXI_and_low (f : BitVec 4) (x : Reg) (nn : Byte) :
    formatXI f x nn &&& 0xF0FF = f ++ 0#4 ++ nn := by
  have h : (0xF0FF : Word) = 0xF#4 ++ 0#4 ++ 0xFF#8 := rfl
  rw [h]
  refine BitVec.and_append.trans ?_
  rw [BitVec.and_append, show (0xF#4 : BitVec 4) = BitVec.allOnes 4 from rfl,
    show (0xFF#8 : BitVec 8) = BitVec.allOnes 8 from rfl, BitVec.and_allOnes, BitVec.and_allOnes, BitVec.and_zero]

/-- Format XYN under the mask of the family nibble. -/
theorem formatXYN_and_family (f : BitVec 4) (x y : Reg) (n : Nibble) : formatXYN f x y n &&& 0xF000 = f ++ 0#12 := by
  have h : (0xF000 : Word) = 0xF#4 ++ 0#4 ++ 0#4 ++ 0#4 := rfl
  rw [h]
  refine BitVec.and_append.trans ?_
  rw [BitVec.and_append, BitVec.and_append, show (0xF#4 : BitVec 4) = BitVec.allOnes 4 from rfl, BitVec.and_allOnes,
    BitVec.and_zero, BitVec.and_zero, BitVec.and_zero]
  revert f
  decide

/-- Format XYN under the mask of the family nibble and the last nibble. -/
theorem formatXYN_and_last (f : BitVec 4) (x y : Reg) (n : Nibble) :
    formatXYN f x y n &&& 0xF00F = f ++ 0#8 ++ n := by
  have h : (0xF00F : Word) = 0xF#4 ++ 0#4 ++ 0#4 ++ 0xF#4 := rfl
  rw [h]
  refine BitVec.and_append.trans ?_
  rw [BitVec.and_append, BitVec.and_append, show (0xF#4 : BitVec 4) = BitVec.allOnes 4 from rfl, BitVec.and_allOnes,
    BitVec.and_allOnes, BitVec.and_zero, BitVec.and_zero]
  revert f n
  decide

/-- The number of a word of format A. -/
theorem formatA_toNat (f : BitVec 4) (nnn : Addr12) : (formatA f nnn).toNat = f.toNat * 4096 + nnn.toNat := by
  simp only [formatA, BitVec.toNat_append]
  rw [← Nat.shiftLeft_add_eq_or_of_lt nnn.isLt, Nat.shiftLeft_eq]

/-- The number of a word of format XI. -/
theorem formatXI_toNat (f : BitVec 4) (x : Reg) (nn : Byte) :
    (formatXI f x nn).toNat = f.toNat * 4096 + x.val * 256 + nn.toNat := by
  have hx : (regBits x).toNat = x.val := rfl
  simp only [formatXI, BitVec.toNat_append]
  rw [← Nat.shiftLeft_add_eq_or_of_lt nn.isLt, ← Nat.shiftLeft_add_eq_or_of_lt (regBits x).isLt, Nat.shiftLeft_eq,
    Nat.shiftLeft_eq, hx]
  omega

/-- The number of a word of format XY or XYN. -/
theorem formatXYN_toNat (f : BitVec 4) (x y : Reg) (n : Nibble) :
    (formatXYN f x y n).toNat = f.toNat * 4096 + x.val * 256 + y.val * 16 + n.toNat := by
  have hx : (regBits x).toNat = x.val := rfl
  have hy : (regBits y).toNat = y.val := rfl
  simp only [formatXYN, BitVec.toNat_append]
  rw [← Nat.shiftLeft_add_eq_or_of_lt n.isLt, ← Nat.shiftLeft_add_eq_or_of_lt (regBits y).isLt,
    ← Nat.shiftLeft_add_eq_or_of_lt (regBits x).isLt, Nat.shiftLeft_eq, Nat.shiftLeft_eq, Nat.shiftLeft_eq, hx, hy]
  omega

/-- Field F as a number. -/
theorem fieldF_toNat (w : Word) : (fieldF w).toNat = w.toNat / 0x1000 := by
  have := w.isLt
  simp [fieldF, BitVec.extractLsb'_toNat, Nat.shiftRight_eq_div_pow]
  omega

/-- Field N as a number. -/
theorem fieldN_toNat (w : Word) : (fieldN w).toNat = w.toNat % 0x10 := by
  simp [fieldN, BitVec.extractLsb'_toNat]

/-- Field NN as a number. -/
theorem fieldNN_toNat (w : Word) : (fieldNN w).toNat = w.toNat % 0x100 := by
  simp [fieldNN, BitVec.extractLsb'_toNat]

end Sys2Proof
end

