-- ==== Sys2Proof/Laws/Display.lean ====
section
/-! SUPPORT. What the sprite loops of DXYN do, said once: each pixel is the old one exclusive-or the sprite's wrapped
image, and the collision is an old pixel under a set bit (44_display.md R94, R95 a, b). -/

namespace Sys2Proof.Machine

open Sys2Proof.Safety (spriteImage)

/-- A toggle flips its own pixel and leaves every other pixel alone. -/
theorem Framebuffer.pixel_toggle (f : Framebuffer) (x a : Fin 64) (y b : Fin 32) :
    (Framebuffer.toggle f x y).pixel a b = if a = x ∧ b = y then !(f.pixel a b) else f.pixel a b := by
  simp only [Framebuffer.toggle, Framebuffer.pixel, Vector.getElem_set]
  by_cases hb : b = y
  · subst hb
    by_cases ha : a = x
    · subst ha
      simp
    · have : x.val ≠ a.val := fun e => ha (Fin.ext e.symm)
      simp [ha, this]
  · have : y.val ≠ b.val := fun e => hb (Fin.ext e.symm)
    simp [hb, this]

/-- The cleared framebuffer is off everywhere (R93). -/
@[simp] theorem pixel_clearFb (x : Fin 64) (y : Fin 32) : clearFb.pixel x y = false := by
  simp [clearFb, Framebuffer.pixel]

/-- How far column `a` lies from `x0`, going right and round the edge. -/
def colDist (x0 : Byte) (a : Fin 64) : Nat := (a.val + 256 - x0.toNat) % 64

/-- How far row `y` lies from `y0`, going down and round the edge. -/
def lineDist (y0 : Byte) (y : Fin 32) : Nat := (y.val + 256 - y0.toNat) % 32

theorem eq_drawCol_iff (x0 : Byte) (a : Fin 64) (n : Nat) (hn : n < 64) :
    a = drawCol x0 n ↔ colDist x0 a = n := by
  have := x0.isLt
  have := a.isLt
  simp only [Fin.ext_iff, drawCol, colDist, Fin.val_ofNat]
  omega

theorem eq_drawLine_iff (y0 : Byte) (y : Fin 32) (r : Nat) (hr : r < 32) :
    y = drawLine y0 r ↔ lineDist y0 y = r := by
  have := y0.isLt
  have := y.isLt
  simp only [Fin.ext_iff, drawLine, lineDist, Fin.val_ofNat]
  omega

/-- The image of the first n columns of one sprite byte. -/
def rowImage (x0 b : Byte) (n : Nat) (a : Fin 64) : Bool :=
  decide (colDist x0 a < n) && b.getLsbD (7 - colDist x0 a)

/-- One more column of the image. -/
theorem rowImage_succ (x0 b : Byte) (n : Nat) (hn : n < 64) (a : Fin 64) :
    rowImage x0 b (n + 1) a = if a = drawCol x0 n then b.getLsbD (7 - n) else rowImage x0 b n a := by
  simp only [eq_drawCol_iff x0 a n hn, rowImage]
  split
  · simp [*]
  · have : colDist x0 a < n + 1 ↔ colDist x0 a < n := by omega
    simp [this]

/-- The first n columns of a sprite byte, n at most 8. -/
theorem foldl_drawBit (x0 b : Byte) (py : Fin 32) (d : Framebuffer × Bool) (n : Nat) (hn : n ≤ 8) :
    (∀ a y, ((List.range n).foldl (drawBit x0 py b) d).1.pixel a y
        = (d.1.pixel a y ^^ (decide (y = py) && rowImage x0 b n a))) ∧
      (((List.range n).foldl (drawBit x0 py b) d).2 = true ↔
        d.2 = true ∨ ∃ a, rowImage x0 b n a = true ∧ d.1.pixel a py = true) := by
  induction n with
  | zero => simp [rowImage]
  | succ n ih =>
    obtain ⟨ihp, ihc⟩ := ih (by omega)
    have hcol := eq_drawCol_iff x0 (drawCol x0 n) n (by omega)
    have hself : rowImage x0 b n (drawCol x0 n) = false := by
      simp [rowImage, hcol.mp rfl]
    simp only [List.range_succ, List.foldl_append, List.foldl_cons, List.foldl_nil]
    generalize (List.range n).foldl (drawBit x0 py b) d = e at ihp ihc
    unfold drawBit
    split
    · rename_i hbit
      constructor
      · intro a y
        simp only [Framebuffer.pixel_toggle, ihp, rowImage_succ x0 b n (by omega)]
        by_cases ha : a = drawCol x0 n
        · subst ha
          by_cases hy : y = py <;> simp [hy, hself, hbit]
        · simp [ha]
      · simp only [Bool.or_eq_true, ihc, ihp, hself, decide_true, Bool.and_false, Bool.xor_false,
          rowImage_succ x0 b n (by omega)]
        constructor
        · rintro ((h | ⟨a, h1, h2⟩) | h)
          · exact .inl h
          · refine .inr ⟨a, ?_, h2⟩
            rw [if_neg]
            · exact h1
            · rintro rfl
              simp [hself] at h1
          · exact .inr ⟨drawCol x0 n, by simpa using hbit, h⟩
        · rintro (h | ⟨a, h1, h2⟩)
          · exact .inl (.inl h)
          · split at h1
            · subst a
              exact .inr h2
            · exact .inl (.inr ⟨a, h1, h2⟩)
    · rename_i hbit
      have hsame : ∀ a, rowImage x0 b (n + 1) a = rowImage x0 b n a := by
        intro a
        rw [rowImage_succ x0 b n (by omega)]
        split
        · subst a
          rw [hself]
          simpa using hbit
        · rfl
      simp only [hsame]
      exact ⟨ihp, ihc⟩

/-- The image of the sprite rows from row r on. -/
def rowsImage (x0 y0 : Byte) (r : Nat) (bs : List Byte) (a : Fin 64) (y : Fin 32) : Bool :=
  decide (r ≤ lineDist y0 y) && rowImage x0 (bs.getD (lineDist y0 y - r) 0) 8 a

/-- The sprite rows from row r on, at most 32 of them in all. -/
theorem drawRows_spec (x0 y0 : Byte) (r : Nat) (bs : List Byte) (d : Framebuffer × Bool)
    (h : r + bs.length ≤ 32) :
    (∀ a y, (drawRows x0 y0 r bs d).1.pixel a y = (d.1.pixel a y ^^ rowsImage x0 y0 r bs a y)) ∧
      ((drawRows x0 y0 r bs d).2 = true ↔
        d.2 = true ∨ ∃ a y, rowsImage x0 y0 r bs a y = true ∧ d.1.pixel a y = true) := by
  induction bs generalizing r d with
  | nil => simp [drawRows, rowsImage, rowImage]
  | cons b bs ih =>
    simp only [List.length_cons] at h
    obtain ⟨rowp, rowc⟩ := foldl_drawBit x0 b (drawLine y0 r) d 8 (Nat.le_refl _)
    obtain ⟨ihp, ihc⟩ := ih (r + 1) (drawRow x0 (drawLine y0 r) b d) (by omega)
    -- the image of the rows is the first row's image on its own line, and the later rows' elsewhere
    have himg : ∀ a y, rowsImage x0 y0 r (b :: bs) a y =
        if y = drawLine y0 r then rowImage x0 b 8 a else rowsImage x0 y0 (r + 1) bs a y := by
      intro a y
      simp only [eq_drawLine_iff y0 y r (by omega), rowsImage]
      split
      · simp [*]
      · by_cases hle : r ≤ lineDist y0 y
        · have e : lineDist y0 y - r = (lineDist y0 y - (r + 1)) + 1 := by omega
          have e2 : r + 1 ≤ lineDist y0 y := by omega
          simp [hle, e2, e]
        · have e2 : ¬ r + 1 ≤ lineDist y0 y := by omega
          simp [hle, e2]
    have hlater : ∀ a y, y = drawLine y0 r → rowsImage x0 y0 (r + 1) bs a y = false := by
      intro a y hy
      rw [eq_drawLine_iff y0 y r (by omega)] at hy
      simp [rowsImage, hy]
    simp only [drawRow] at ihp ihc
    simp only [drawRows, drawRow]
    constructor
    · intro a y
      rw [ihp, rowp, himg]
      split
      · rename_i hy
        rw [hlater a y hy]
        simp [hy]
      · simp [*]
    · rw [ihc, rowc]
      simp only [himg, rowp]
      constructor
      · rintro ((hd | ⟨a, h1, h2⟩) | ⟨a, y, h1, h2⟩)
        · exact .inl hd
        · exact .inr ⟨a, drawLine y0 r, by simpa using h1, h2⟩
        · have hy : y ≠ drawLine y0 r := fun e => by simp [hlater a y e] at h1
          exact .inr ⟨a, y, by simpa [hy] using h1, by simpa [hy] using h2⟩
      · rintro (hd | ⟨a, y, h1, h2⟩)
        · exact .inl (.inl hd)
        · split at h1
          · subst y
            exact .inl (.inr ⟨a, h1, h2⟩)
          · rename_i hy
            exact .inr ⟨a, y, h1, by simpa [hy] using h2⟩

/-- The rows from row 0 on are the sprite's wrapped image. -/
theorem rowsImage_zero (x0 y0 : Byte) (bs : List Byte) (a : Fin 64) (y : Fin 32) :
    rowsImage x0 y0 0 bs a y = spriteImage x0 y0 bs a y := by
  simp only [rowsImage, Nat.zero_le, decide_true, Bool.true_and, Nat.sub_zero]
  rfl

/-- What a draw does: exclusive-or with the sprite's wrapped image, and the collision flag (R94, R95). -/
theorem drawSprite_spec (x0 y0 : Byte) (bs : List Byte) (f : Framebuffer) (h : bs.length ≤ 32) :
    (∀ a y, (drawSprite x0 y0 bs f).1.pixel a y = (f.pixel a y ^^ spriteImage x0 y0 bs a y)) ∧
      ((drawSprite x0 y0 bs f).2 = true ↔
        ∃ a y, spriteImage x0 y0 bs a y = true ∧ f.pixel a y = true) := by
  simpa [drawSprite, rowsImage_zero] using drawRows_spec x0 y0 0 bs (f, false) (by simpa using h)

end Sys2Proof.Machine
end

