-- ==== Sys2Proof/Laws/Memory.lean ====
section
/-! SUPPORT. The laws of memory: a read after a write, what a block write and a block read do, and that every memory
operation keeps the canonical form (`Memory.wf`), which the memory after reset has. -/

namespace Sys2Proof.Machine

open Config (memSize memInit)

/-- A lower bound may be weakened. -/
theorem Memory.wfFrom_mono {lo hi : Nat} {m : Memory} (h : lo ≤ hi) (hm : Memory.wfFrom hi m = true) :
    Memory.wfFrom lo m = true := by
  cases m with
  | nil => rfl
  | cons c rest =>
    simp only [Memory.wfFrom, Bool.and_eq_true, decide_eq_true_eq] at hm ⊢
    exact ⟨⟨⟨by omega, hm.1.1.2⟩, hm.1.2⟩, hm.2⟩

/-- Taking cells away keeps the canonical form. -/
theorem Memory.wfFrom_filter {lo : Nat} {m : Memory} (p : Host.Cell → Bool) (hm : Memory.wfFrom lo m = true) :
    Memory.wfFrom lo (m.filter p) = true := by
  induction m generalizing lo with
  | nil => rfl
  | cons c rest ih =>
    simp only [Memory.wfFrom, Bool.and_eq_true, decide_eq_true_eq] at hm
    rw [List.filter_cons]
    split
    · simp only [Memory.wfFrom, Bool.and_eq_true, decide_eq_true_eq]
      exact ⟨hm.1, ih hm.2⟩
    · exact Memory.wfFrom_mono (by omega) (ih hm.2)

/-- Putting a cell in, at an address that no cell has, keeps the canonical form. -/
theorem Memory.wfFrom_insert {lo a : Nat} {b : Byte} {m : Memory} (hlo : lo ≤ a) (ha : a < memSize)
    (hb : b ≠ memInit) (hne : ∀ c ∈ m, c.1 ≠ a) (hm : Memory.wfFrom lo m = true) :
    Memory.wfFrom lo (Memory.insert a b m) = true := by
  induction m generalizing lo with
  | nil => simp [Memory.insert, Memory.wfFrom, hlo, ha, hb]
  | cons c rest ih =>
    obtain ⟨c, d⟩ := c
    simp only [Memory.wfFrom, Bool.and_eq_true, decide_eq_true_eq] at hm
    simp only [Memory.insert]
    have hca : c ≠ a := hne (c, d) (by simp)
    split
    · simp only [Memory.wfFrom, Bool.and_eq_true, decide_eq_true_eq]
      exact ⟨⟨⟨hlo, ha⟩, hb⟩, ⟨⟨by omega, hm.1.1.2⟩, hm.1.2⟩, hm.2⟩
    · simp only [Memory.wfFrom, Bool.and_eq_true, decide_eq_true_eq]
      exact ⟨hm.1, ih (by omega) (fun e he => hne e (by simp [he])) hm.2⟩

/-- A write inside memory keeps the canonical form. -/
theorem Memory.wf_write {m : Memory} {a : Nat} (b : Byte) (ha : a < memSize) (hm : m.wf = true) :
    (m.write a b).wf = true := by
  simp only [Memory.wf, Memory.write]
  split
  · exact Memory.wfFrom_filter _ hm
  · refine Memory.wfFrom_insert (Nat.zero_le _) ha ‹_› (fun c hc => ?_) (Memory.wfFrom_filter _ hm)
    simpa using (List.mem_filter.mp hc).2

/-- A block write inside memory keeps the canonical form. -/
theorem Memory.wf_writeBytes {m : Memory} {a : Nat} {bs : List Byte} (h : a + bs.length ≤ memSize)
    (hm : m.wf = true) : (m.writeBytes a bs).wf = true := by
  induction bs generalizing m a with
  | nil => exact hm
  | cons b bs ih =>
    simp only [List.length_cons] at h
    exact ih (by omega) (Memory.wf_write b (by omega) hm)

/-- Erasing an address makes it read as unlisted and leaves every other address alone. -/
theorem Memory.read_erase (m : Memory) (a c : Nat) :
    Memory.read (m.filter fun x => x.1 ≠ a) c = if c = a then memInit else m.read c := by
  induction m with
  | nil => simp [Memory.read]
  | cons x rest ih =>
    obtain ⟨x, y⟩ := x
    rw [List.filter_cons]
    by_cases hx : x = a
    · subst hx
      simp only [ne_eq, not_true_eq_false, decide_false, Bool.false_eq_true, if_false, Memory.read, ih]
      split
      · rfl
      · rw [if_neg (fun e => ‹¬ c = x› e.symm)]
    · simp only [ne_eq, hx, not_false_eq_true, decide_true, if_true, Memory.read, ih]
      by_cases hc : x = c
      · subst hc
        simp [hx]
      · simp [hc]

/-- What a read finds after a cell was put in. -/
theorem Memory.read_insert (m : Memory) (a c : Nat) (b : Byte) (hne : ∀ x ∈ m, x.1 ≠ a) :
    Memory.read (Memory.insert a b m) c = if c = a then b else m.read c := by
  induction m with
  | nil => simp [Memory.insert, Memory.read, eq_comm]
  | cons x rest ih =>
    obtain ⟨x, y⟩ := x
    have hx : x ≠ a := hne (x, y) (by simp)
    simp only [Memory.insert]
    split
    · simp [Memory.read, eq_comm]
    · simp only [Memory.read, ih (fun z hz => hne z (by simp [hz]))]
      by_cases hc : x = c
      · subst hc
        simp [hx]
      · simp [hc]

/-- A read after a write: the byte written there, every other byte as it was (20_memory.md R39). -/
@[simp] theorem Memory.read_write (m : Memory) (a c : Nat) (b : Byte) :
    (m.write a b).read c = if c = a then b else m.read c := by
  simp only [Memory.write]
  split
  · rw [Memory.read_erase]
    simp [*]
  · rw [Memory.read_insert, Memory.read_erase]
    · split <;> simp
    · intro x hx
      simpa using (List.mem_filter.mp hx).2

/-- A read after a block write (20_memory.md R38). -/
theorem Memory.read_writeBytes (m : Memory) (a c : Nat) (bs : List Byte) :
    (m.writeBytes a bs).read c = if h : a ≤ c ∧ c - a < bs.length then bs[c - a] else m.read c := by
  induction bs generalizing m a with
  | nil => simp [Memory.writeBytes]
  | cons b bs ih =>
    simp only [Memory.writeBytes, ih, Memory.read_write, List.length_cons]
    by_cases e : c = a
    · subst e
      simp
    · by_cases hlt : a < c
      · have e1 : c - a = (c - (a + 1)) + 1 := by omega
        by_cases hl : c - (a + 1) < bs.length
        · rw [dif_pos ⟨by omega, hl⟩, dif_pos ⟨by omega, by omega⟩]
          simp only [e1, List.getElem_cons_succ]
        · rw [dif_neg (by omega), dif_neg (by omega), if_neg e]
      · rw [dif_neg (by omega), dif_neg (by omega), if_neg e]

@[simp] theorem Memory.length_readBytes (m : Memory) (a n : Nat) : (m.readBytes a n).length = n := by
  induction n generalizing a with
  | zero => rfl
  | succ n ih => simp [Memory.readBytes, ih]

/-- Byte k of a block read is the byte at `a + k` (20_memory.md R38). -/
@[simp] theorem Memory.getElem_readBytes (m : Memory) (a n k : Nat) (h : k < (m.readBytes a n).length) :
    (m.readBytes a n)[k] = m.read (a + k) := by
  induction n generalizing a k with
  | zero => simp [Memory.readBytes] at h
  | succ n ih =>
    cases k with
    | zero => rfl
    | succ k =>
      simp only [Memory.readBytes, List.getElem_cons_succ, ih]
      congr 1
      omega

/-- The cells of consecutive bytes inside memory are in canonical form. -/
theorem wfFrom_cellsFrom {lo a : Nat} {bs : List Byte} (hlo : lo ≤ a) (h : a + bs.length ≤ memSize) :
    Memory.wfFrom lo (cellsFrom a bs) = true := by
  induction bs generalizing lo a with
  | nil => rfl
  | cons b bs ih =>
    simp only [List.length_cons] at h
    simp only [cellsFrom]
    split
    · exact ih (by omega) (by omega)
    · simp only [Memory.wfFrom, Bool.and_eq_true, decide_eq_true_eq]
      exact ⟨⟨⟨hlo, by omega⟩, ‹_›⟩, ih (Nat.le_refl _) (by omega)⟩

/-- Reading below the first listed address. -/
theorem Memory.read_of_wfFrom {lo c : Nat} {m : Memory} (hm : Memory.wfFrom lo m = true) (hc : c < lo) :
    m.read c = memInit := by
  induction m generalizing lo with
  | nil => rfl
  | cons x rest ih =>
    obtain ⟨x, y⟩ := x
    simp only [Memory.wfFrom, Bool.and_eq_true, decide_eq_true_eq] at hm
    simp only [Memory.read]
    rw [if_neg (by omega), ih hm.2 (by omega)]

/-- What the cells of consecutive bytes read as. -/
theorem read_cellsFrom (a c : Nat) (bs : List Byte) (h : a + bs.length ≤ memSize) :
    Memory.read (cellsFrom a bs) c = if h : a ≤ c ∧ c - a < bs.length then bs[c - a] else memInit := by
  induction bs generalizing a with
  | nil => simp [cellsFrom, Memory.read]
  | cons b bs ih =>
    simp only [List.length_cons] at h
    have step : Memory.read (cellsFrom a (b :: bs)) c = if c = a then b else Memory.read (cellsFrom (a + 1) bs) c := by
      simp only [cellsFrom]
      split
      · split
        · subst c
          rw [Memory.read_of_wfFrom (wfFrom_cellsFrom (Nat.le_refl (a + 1)) (by omega)) (by omega)]
          exact ‹b = memInit›.symm
        · rfl
      · simp [Memory.read, eq_comm]
    rw [step, ih (a + 1) (by omega)]
    by_cases e : c = a
    · subst e
      simp
    · by_cases hlt : a < c
      · have e1 : c - a = (c - (a + 1)) + 1 := by omega
        by_cases hl : c - (a + 1) < bs.length
        · rw [if_neg e, dif_pos ⟨by omega, hl⟩, dif_pos ⟨by omega, by simp only [List.length_cons]; omega⟩]
          simp only [e1, List.getElem_cons_succ]
        · rw [if_neg e, dif_neg (by omega), dif_neg (by simp only [List.length_cons]; omega)]
      · rw [if_neg e, dif_neg (by omega), dif_neg (by omega)]

/-- The memory after reset is in canonical form, whatever the font. -/
theorem wf_resetWith (font : Vector Byte 80) : (State.resetWith font).mem.wf = true :=
  wfFrom_cellsFrom (Nat.zero_le _) (by simp [Config.fontBase, memSize])

/-- When an access faults, and with which address (20_memory.md R33). -/
theorem rangeFault_eq_some {k : AccessKind} {base len : Nat} {f : Fault} :
    rangeFault k base len = some f ↔
      1 ≤ len ∧ memSize < base + len ∧ f = .addressFault k (max base memSize) := by
  unfold rangeFault
  split <;> simp_all [eq_comm]

/-- When an access is in range (20_memory.md R33). -/
theorem rangeFault_eq_none {k : AccessKind} {base len : Nat} :
    rangeFault k base len = none ↔ (len = 0 ∨ base + len ≤ memSize) := by
  unfold rangeFault
  split <;> simp <;> omega

/-- A guarded access in range runs. -/
theorem guarded_of_inRange {k : AccessKind} {base len : Nat} {r : Result} (h : len = 0 ∨ base + len ≤ memSize) :
    guarded k base len r = r := by
  simp only [guarded, rangeFault_eq_none.mpr h]

/-- A guarded access out of range faults, and has no other effect. -/
theorem guarded_of_outOfRange {k : AccessKind} {base len : Nat} {r : Result} (h1 : 1 ≤ len)
    (h : memSize < base + len) : guarded k base len r = .fault (.addressFault k (max base memSize)) := by
  simp only [guarded, rangeFault_eq_some.mpr ⟨h1, h, rfl⟩]

/-- What a guarded access can answer as a next state: what it guards, in range. -/
theorem guarded_eq_next {k : AccessKind} {base len : Nat} {r : Result} {t : State}
    (h : guarded k base len r = .next t) : (len = 0 ∨ base + len ≤ memSize) ∧ r = .next t := by
  unfold guarded at h
  split at h
  · cases h
  · exact ⟨rangeFault_eq_none.mp ‹_›, h⟩

/-- A fetch in range reads the two bytes at pc, big-endian (40_machine_cycle.md R57). -/
theorem fetch_of_inRange {s : State} (h : s.pc.toNat + 2 ≤ memSize) :
    fetch s = .ok (wordOfBytes (s.mem.read s.pc.toNat) (s.mem.read (s.pc.toNat + 1))) := by
  simp only [fetch, rangeFault_eq_none.mpr (Or.inr h)]

/-- A fetch that answers a word was in range. -/
theorem fetch_eq_ok {s : State} {w : Word} (h : fetch s = .ok w) :
    s.pc.toNat + 2 ≤ memSize ∧ w = wordOfBytes (s.mem.read s.pc.toNat) (s.mem.read (s.pc.toNat + 1)) := by
  unfold fetch at h
  split at h
  · cases h
  · refine ⟨?_, (Except.ok.inj h).symm⟩
    exact (rangeFault_eq_none.mp ‹_›).resolve_left (by decide)

end Sys2Proof.Machine
end

