-- ==== Sys2Proof/Laws/PerInstr.lean ====
section
/-! SUPPORT. A statement about every instruction as syntax: its word matches its own row of the opcode map in every
fixed bit (30_encoding.md R49, R51). One lemma per constructor. -/

namespace Sys2Proof.Laws.EncodesItsRow

/-- The instruction's word matches the instruction's row of the opcode map. -/
def Statement (i : Instr) : Prop := (rowOf i).matches (encode i) = true

/-- A row matches when the word under its mask is its pattern. -/
theorem of_and_eq {i : Instr} (h : encode i &&& (rowOf i).mask = (rowOf i).pattern) : Statement i := beq_iff_eq.mpr h

theorem i00E0 : Statement (.i00E0) := of_and_eq rfl
theorem i00EE : Statement (.i00EE) := of_and_eq rfl
theorem i1NNN (nnn : Addr12) : Statement (.i1NNN nnn) := of_and_eq (formatA_and_family _ _)
theorem i2NNN (nnn : Addr12) : Statement (.i2NNN nnn) := of_and_eq (formatA_and_family _ _)
theorem i3XNN (x : Reg) (nn : Byte) : Statement (.i3XNN x nn) := of_and_eq (formatXI_and_family _ _ _)
theorem i4XNN (x : Reg) (nn : Byte) : Statement (.i4XNN x nn) := of_and_eq (formatXI_and_family _ _ _)
theorem i5XY0 (x : Reg) (y : Reg) : Statement (.i5XY0 x y) := of_and_eq (formatXYN_and_last _ _ _ _)
theorem i6XNN (x : Reg) (nn : Byte) : Statement (.i6XNN x nn) := of_and_eq (formatXI_and_family _ _ _)
theorem i7XNN (x : Reg) (nn : Byte) : Statement (.i7XNN x nn) := of_and_eq (formatXI_and_family _ _ _)
theorem i8XY0 (x : Reg) (y : Reg) : Statement (.i8XY0 x y) := of_and_eq (formatXYN_and_last _ _ _ _)
theorem i8XY1 (x : Reg) (y : Reg) : Statement (.i8XY1 x y) := of_and_eq (formatXYN_and_last _ _ _ _)
theorem i8XY2 (x : Reg) (y : Reg) : Statement (.i8XY2 x y) := of_and_eq (formatXYN_and_last _ _ _ _)
theorem i8XY3 (x : Reg) (y : Reg) : Statement (.i8XY3 x y) := of_and_eq (formatXYN_and_last _ _ _ _)
theorem i8XY4 (x : Reg) (y : Reg) : Statement (.i8XY4 x y) := of_and_eq (formatXYN_and_last _ _ _ _)
theorem i8XY5 (x : Reg) (y : Reg) : Statement (.i8XY5 x y) := of_and_eq (formatXYN_and_last _ _ _ _)
theorem i8XY6 (x : Reg) (y : Reg) : Statement (.i8XY6 x y) := of_and_eq (formatXYN_and_last _ _ _ _)
theorem i8XY7 (x : Reg) (y : Reg) : Statement (.i8XY7 x y) := of_and_eq (formatXYN_and_last _ _ _ _)
theorem i8XYE (x : Reg) (y : Reg) : Statement (.i8XYE x y) := of_and_eq (formatXYN_and_last _ _ _ _)
theorem i9XY0 (x : Reg) (y : Reg) : Statement (.i9XY0 x y) := of_and_eq (formatXYN_and_last _ _ _ _)
theorem iANNN (nnn : Addr12) : Statement (.iANNN nnn) := of_and_eq (formatA_and_family _ _)
theorem iBNNN (nnn : Addr12) : Statement (.iBNNN nnn) := of_and_eq (formatA_and_family _ _)
theorem iCXNN (x : Reg) (nn : Byte) : Statement (.iCXNN x nn) := of_and_eq (formatXI_and_family _ _ _)
theorem iDXYN (x : Reg) (y : Reg) (n : Nibble) : Statement (.iDXYN x y n) := of_and_eq (formatXYN_and_family _ _ _ _)
theorem iEX9E (x : Reg) : Statement (.iEX9E x) := of_and_eq (formatXI_and_low _ _ _)
theorem iEXA1 (x : Reg) : Statement (.iEXA1 x) := of_and_eq (formatXI_and_low _ _ _)
theorem iFX07 (x : Reg) : Statement (.iFX07 x) := of_and_eq (formatXI_and_low _ _ _)
theorem iFX0A (x : Reg) : Statement (.iFX0A x) := of_and_eq (formatXI_and_low _ _ _)
theorem iFX15 (x : Reg) : Statement (.iFX15 x) := of_and_eq (formatXI_and_low _ _ _)
theorem iFX18 (x : Reg) : Statement (.iFX18 x) := of_and_eq (formatXI_and_low _ _ _)
theorem iFX1E (x : Reg) : Statement (.iFX1E x) := of_and_eq (formatXI_and_low _ _ _)
theorem iFX29 (x : Reg) : Statement (.iFX29 x) := of_and_eq (formatXI_and_low _ _ _)
theorem iFX33 (x : Reg) : Statement (.iFX33 x) := of_and_eq (formatXI_and_low _ _ _)
theorem iFX55 (x : Reg) : Statement (.iFX55 x) := of_and_eq (formatXI_and_low _ _ _)
theorem iFX65 (x : Reg) : Statement (.iFX65 x) := of_and_eq (formatXI_and_low _ _ _)

end Sys2Proof.Laws.EncodesItsRow
end

