-- ==== Sys2Proof/Laws/State.lean ====
section
/-! SUPPORT. One lemma per field per update of State, true by rfl, so that no proof unfolds a record update; and the
read-after-write laws of the register file and the keypad. -/

namespace Sys2Proof.Machine.State

variable (s : State)

section
variable (x : Reg) (b : Byte)

@[simp] theorem setV_v : (s.setV x b).v = s.v.set x.val b := rfl
@[simp] theorem setV_i : (s.setV x b).i = s.i := rfl
@[simp] theorem setV_pc : (s.setV x b).pc = s.pc := rfl
@[simp] theorem setV_sp : (s.setV x b).sp = s.sp := rfl
@[simp] theorem setV_stack : (s.setV x b).stack = s.stack := rfl
@[simp] theorem setV_dt : (s.setV x b).dt = s.dt := rfl
@[simp] theorem setV_st : (s.setV x b).st = s.st := rfl
@[simp] theorem setV_fb : (s.setV x b).fb = s.fb := rfl
@[simp] theorem setV_key : (s.setV x b).key = s.key := rfl
@[simp] theorem setV_mem : (s.setV x b).mem = s.mem := rfl
@[simp] theorem setV_draws : (s.setV x b).draws = s.draws := rfl

end

section
variable (w : Word)

@[simp] theorem setI_v : (s.setI w).v = s.v := rfl
@[simp] theorem setI_i : (s.setI w).i = w := rfl
@[simp] theorem setI_pc : (s.setI w).pc = s.pc := rfl
@[simp] theorem setI_sp : (s.setI w).sp = s.sp := rfl
@[simp] theorem setI_stack : (s.setI w).stack = s.stack := rfl
@[simp] theorem setI_dt : (s.setI w).dt = s.dt := rfl
@[simp] theorem setI_st : (s.setI w).st = s.st := rfl
@[simp] theorem setI_fb : (s.setI w).fb = s.fb := rfl
@[simp] theorem setI_key : (s.setI w).key = s.key := rfl
@[simp] theorem setI_mem : (s.setI w).mem = s.mem := rfl
@[simp] theorem setI_draws : (s.setI w).draws = s.draws := rfl

end

section
variable (w : Word)

@[simp] theorem setPc_v : (s.setPc w).v = s.v := rfl
@[simp] theorem setPc_i : (s.setPc w).i = s.i := rfl
@[simp] theorem setPc_pc : (s.setPc w).pc = w := rfl
@[simp] theorem setPc_sp : (s.setPc w).sp = s.sp := rfl
@[simp] theorem setPc_stack : (s.setPc w).stack = s.stack := rfl
@[simp] theorem setPc_dt : (s.setPc w).dt = s.dt := rfl
@[simp] theorem setPc_st : (s.setPc w).st = s.st := rfl
@[simp] theorem setPc_fb : (s.setPc w).fb = s.fb := rfl
@[simp] theorem setPc_key : (s.setPc w).key = s.key := rfl
@[simp] theorem setPc_mem : (s.setPc w).mem = s.mem := rfl
@[simp] theorem setPc_draws : (s.setPc w).draws = s.draws := rfl

end

section
variable (b : Byte)

@[simp] theorem setDT_v : (s.setDT b).v = s.v := rfl
@[simp] theorem setDT_i : (s.setDT b).i = s.i := rfl
@[simp] theorem setDT_pc : (s.setDT b).pc = s.pc := rfl
@[simp] theorem setDT_sp : (s.setDT b).sp = s.sp := rfl
@[simp] theorem setDT_stack : (s.setDT b).stack = s.stack := rfl
@[simp] theorem setDT_dt : (s.setDT b).dt = b := rfl
@[simp] theorem setDT_st : (s.setDT b).st = s.st := rfl
@[simp] theorem setDT_fb : (s.setDT b).fb = s.fb := rfl
@[simp] theorem setDT_key : (s.setDT b).key = s.key := rfl
@[simp] theorem setDT_mem : (s.setDT b).mem = s.mem := rfl
@[simp] theorem setDT_draws : (s.setDT b).draws = s.draws := rfl

end

section
variable (b : Byte)

@[simp] theorem setST_v : (s.setST b).v = s.v := rfl
@[simp] theorem setST_i : (s.setST b).i = s.i := rfl
@[simp] theorem setST_pc : (s.setST b).pc = s.pc := rfl
@[simp] theorem setST_sp : (s.setST b).sp = s.sp := rfl
@[simp] theorem setST_stack : (s.setST b).stack = s.stack := rfl
@[simp] theorem setST_dt : (s.setST b).dt = s.dt := rfl
@[simp] theorem setST_st : (s.setST b).st = b := rfl
@[simp] theorem setST_fb : (s.setST b).fb = s.fb := rfl
@[simp] theorem setST_key : (s.setST b).key = s.key := rfl
@[simp] theorem setST_mem : (s.setST b).mem = s.mem := rfl
@[simp] theorem setST_draws : (s.setST b).draws = s.draws := rfl

end

section
variable (k : Fin 16) (p : Bool)

@[simp] theorem setKey_v : (s.setKey k p).v = s.v := rfl
@[simp] theorem setKey_i : (s.setKey k p).i = s.i := rfl
@[simp] theorem setKey_pc : (s.setKey k p).pc = s.pc := rfl
@[simp] theorem setKey_sp : (s.setKey k p).sp = s.sp := rfl
@[simp] theorem setKey_stack : (s.setKey k p).stack = s.stack := rfl
@[simp] theorem setKey_dt : (s.setKey k p).dt = s.dt := rfl
@[simp] theorem setKey_st : (s.setKey k p).st = s.st := rfl
@[simp] theorem setKey_fb : (s.setKey k p).fb = s.fb := rfl
@[simp] theorem setKey_key : (s.setKey k p).key = s.key.set k.val p := rfl
@[simp] theorem setKey_mem : (s.setKey k p).mem = s.mem := rfl
@[simp] theorem setKey_draws : (s.setKey k p).draws = s.draws := rfl

end

section
variable (m : Memory)

@[simp] theorem setMem_v : (s.setMem m).v = s.v := rfl
@[simp] theorem setMem_i : (s.setMem m).i = s.i := rfl
@[simp] theorem setMem_pc : (s.setMem m).pc = s.pc := rfl
@[simp] theorem setMem_sp : (s.setMem m).sp = s.sp := rfl
@[simp] theorem setMem_stack : (s.setMem m).stack = s.stack := rfl
@[simp] theorem setMem_dt : (s.setMem m).dt = s.dt := rfl
@[simp] theorem setMem_st : (s.setMem m).st = s.st := rfl
@[simp] theorem setMem_fb : (s.setMem m).fb = s.fb := rfl
@[simp] theorem setMem_key : (s.setMem m).key = s.key := rfl
@[simp] theorem setMem_mem : (s.setMem m).mem = m := rfl
@[simp] theorem setMem_draws : (s.setMem m).draws = s.draws := rfl

end

section
variable (f : Framebuffer)

@[simp] theorem setFb_v : (s.setFb f).v = s.v := rfl
@[simp] theorem setFb_i : (s.setFb f).i = s.i := rfl
@[simp] theorem setFb_pc : (s.setFb f).pc = s.pc := rfl
@[simp] theorem setFb_sp : (s.setFb f).sp = s.sp := rfl
@[simp] theorem setFb_stack : (s.setFb f).stack = s.stack := rfl
@[simp] theorem setFb_dt : (s.setFb f).dt = s.dt := rfl
@[simp] theorem setFb_st : (s.setFb f).st = s.st := rfl
@[simp] theorem setFb_fb : (s.setFb f).fb = f := rfl
@[simp] theorem setFb_key : (s.setFb f).key = s.key := rfl
@[simp] theorem setFb_mem : (s.setFb f).mem = s.mem := rfl
@[simp] theorem setFb_draws : (s.setFb f).draws = s.draws := rfl

end

section
variable (a : PcAction)

@[simp] theorem act_v : (s.act a).v = s.v := by cases a <;> rfl
@[simp] theorem act_i : (s.act a).i = s.i := by cases a <;> rfl
@[simp] theorem act_sp : (s.act a).sp = s.sp := by cases a <;> rfl
@[simp] theorem act_stack : (s.act a).stack = s.stack := by cases a <;> rfl
@[simp] theorem act_dt : (s.act a).dt = s.dt := by cases a <;> rfl
@[simp] theorem act_st : (s.act a).st = s.st := by cases a <;> rfl
@[simp] theorem act_fb : (s.act a).fb = s.fb := by cases a <;> rfl
@[simp] theorem act_key : (s.act a).key = s.key := by cases a <;> rfl
@[simp] theorem act_mem : (s.act a).mem = s.mem := by cases a <;> rfl
@[simp] theorem act_draws : (s.act a).draws = s.draws := by cases a <;> rfl

end

@[simp] theorem act_cont_pc : (s.act .cont).pc = s.pc + 2 := rfl
@[simp] theorem act_skip_pc : (s.act .skip).pc = s.pc + 4 := rfl
@[simp] theorem act_jump_pc (w : Word) : (s.act (.jump w)).pc = w := rfl
@[simp] theorem act_hold : s.act .hold = s := rfl

section
variable (x : Reg) (r f : Byte)

@[simp] theorem setResultFlag_i : (s.setResultFlag x r f).i = s.i := rfl
@[simp] theorem setResultFlag_pc : (s.setResultFlag x r f).pc = s.pc := rfl
@[simp] theorem setResultFlag_sp : (s.setResultFlag x r f).sp = s.sp := rfl
@[simp] theorem setResultFlag_stack : (s.setResultFlag x r f).stack = s.stack := rfl
@[simp] theorem setResultFlag_dt : (s.setResultFlag x r f).dt = s.dt := rfl
@[simp] theorem setResultFlag_st : (s.setResultFlag x r f).st = s.st := rfl
@[simp] theorem setResultFlag_fb : (s.setResultFlag x r f).fb = s.fb := rfl
@[simp] theorem setResultFlag_key : (s.setResultFlag x r f).key = s.key := rfl
@[simp] theorem setResultFlag_mem : (s.setResultFlag x r f).mem = s.mem := rfl
@[simp] theorem setResultFlag_draws : (s.setResultFlag x r f).draws = s.draws := rfl

end

@[simp] theorem draw_fst : s.draw.1 = Config.freeByte s.draws := rfl
@[simp] theorem draw_snd_v : s.draw.2.v = s.v := rfl
@[simp] theorem draw_snd_i : s.draw.2.i = s.i := rfl
@[simp] theorem draw_snd_pc : s.draw.2.pc = s.pc := rfl
@[simp] theorem draw_snd_sp : s.draw.2.sp = s.sp := rfl
@[simp] theorem draw_snd_stack : s.draw.2.stack = s.stack := rfl
@[simp] theorem draw_snd_dt : s.draw.2.dt = s.dt := rfl
@[simp] theorem draw_snd_st : s.draw.2.st = s.st := rfl
@[simp] theorem draw_snd_fb : s.draw.2.fb = s.fb := rfl
@[simp] theorem draw_snd_key : s.draw.2.key = s.key := rfl
@[simp] theorem draw_snd_mem : s.draw.2.mem = s.mem := rfl
@[simp] theorem draw_snd_draws : s.draw.2.draws = s.draws + 1 := rfl

/-- Reading a register after writing one. -/
@[simp] theorem getV_setV (x y : Reg) (b : Byte) : (s.setV x b).getV y = if y = x then b else s.getV y := by
  simp only [getV, setV, Vector.getElem_set]
  by_cases h : y = x
  · simp [h]
  · simpa [h] using fun e : _ = _ => absurd (Fin.ext e.symm) h

/-- A result and its flag: VF holds the flag, whatever X is (42_alu.md R73 f). -/
@[simp] theorem getV_setResultFlag (x y : Reg) (r f : Byte) :
    (s.setResultFlag x r f).getV y = if y = regF then f else if y = x then r else s.getV y := by
  simp [setResultFlag]

/-- Reading a key after setting one. -/
@[simp] theorem getKey_setKey (k j : Fin 16) (p : Bool) :
    (s.setKey k p).getKey j = if j = k then p else s.getKey j := by
  simp only [getKey, setKey, Vector.getElem_set]
  by_cases h : j = k
  · simp [h]
  · simpa [h] using fun e : _ = _ => absurd (Fin.ext e.symm) h

/-- A register is read from `v` alone. -/
theorem getV_congr {s t : State} (h : t.v = s.v) (x : Reg) : t.getV x = s.getV x := by simp only [getV, h]

/-- A key is read from `key` alone. -/
theorem getKey_congr {s t : State} (h : t.key = s.key) (k : Fin 16) : t.getKey k = s.getKey k := by
  simp only [getKey, h]

/-- A byte is read from `mem` alone. -/
theorem byteAt_congr {s t : State} (h : t.mem = s.mem) (a : Nat) : t.byteAt a = s.byteAt a := by
  simp only [byteAt, h]

@[simp] theorem getKey_setV (x : Reg) (b : Byte) (j : Fin 16) : (s.setV x b).getKey j = s.getKey j := rfl
@[simp] theorem byteAt_setV (x : Reg) (b : Byte) (c : Nat) : (s.setV x b).byteAt c = s.byteAt c := rfl
@[simp] theorem getV_setI (w : Word) (y : Reg) : (s.setI w).getV y = s.getV y := rfl
@[simp] theorem getKey_setI (w : Word) (j : Fin 16) : (s.setI w).getKey j = s.getKey j := rfl
@[simp] theorem byteAt_setI (w : Word) (c : Nat) : (s.setI w).byteAt c = s.byteAt c := rfl
@[simp] theorem getV_setPc (w : Word) (y : Reg) : (s.setPc w).getV y = s.getV y := rfl
@[simp] theorem getKey_setPc (w : Word) (j : Fin 16) : (s.setPc w).getKey j = s.getKey j := rfl
@[simp] theorem byteAt_setPc (w : Word) (c : Nat) : (s.setPc w).byteAt c = s.byteAt c := rfl
@[simp] theorem getV_setDT (b : Byte) (y : Reg) : (s.setDT b).getV y = s.getV y := rfl
@[simp] theorem getKey_setDT (b : Byte) (j : Fin 16) : (s.setDT b).getKey j = s.getKey j := rfl
@[simp] theorem byteAt_setDT (b : Byte) (c : Nat) : (s.setDT b).byteAt c = s.byteAt c := rfl
@[simp] theorem getV_setST (b : Byte) (y : Reg) : (s.setST b).getV y = s.getV y := rfl
@[simp] theorem getKey_setST (b : Byte) (j : Fin 16) : (s.setST b).getKey j = s.getKey j := rfl
@[simp] theorem byteAt_setST (b : Byte) (c : Nat) : (s.setST b).byteAt c = s.byteAt c := rfl
@[simp] theorem getV_setKey (k : Fin 16) (p : Bool) (y : Reg) : (s.setKey k p).getV y = s.getV y := rfl
@[simp] theorem byteAt_setKey (k : Fin 16) (p : Bool) (c : Nat) : (s.setKey k p).byteAt c = s.byteAt c := rfl
@[simp] theorem getV_setMem (m : Memory) (y : Reg) : (s.setMem m).getV y = s.getV y := rfl
@[simp] theorem getKey_setMem (m : Memory) (j : Fin 16) : (s.setMem m).getKey j = s.getKey j := rfl
@[simp] theorem getV_setFb (f : Framebuffer) (y : Reg) : (s.setFb f).getV y = s.getV y := rfl
@[simp] theorem getKey_setFb (f : Framebuffer) (j : Fin 16) : (s.setFb f).getKey j = s.getKey j := rfl
@[simp] theorem byteAt_setFb (f : Framebuffer) (c : Nat) : (s.setFb f).byteAt c = s.byteAt c := rfl
@[simp] theorem getV_act (a : PcAction) (y : Reg) : (s.act a).getV y = s.getV y := by cases a <;> rfl
@[simp] theorem getKey_act (a : PcAction) (j : Fin 16) : (s.act a).getKey j = s.getKey j := by cases a <;> rfl
@[simp] theorem byteAt_act (a : PcAction) (c : Nat) : (s.act a).byteAt c = s.byteAt c := by cases a <;> rfl
@[simp] theorem getV_draw (y : Reg) : s.draw.2.getV y = s.getV y := rfl

/-- What a push can do: it succeeds exactly below 16, stores at SP and adds one (10_state.md R17). -/
theorem push_eq_some {s t : State} {w : Word} (h : s.push w = some t) :
    ∃ hs : s.sp.val < 16,
      t = { s with stack := s.stack.set s.sp.val w, sp := ⟨s.sp.val + 1, by omega⟩ } := by
  unfold push at h
  split at h
  · exact ⟨‹_›, (Option.some.inj h).symm⟩
  · cases h

/-- A push fails exactly when the stack is full. -/
theorem push_eq_none {s : State} {w : Word} : s.push w = none ↔ s.sp.val = 16 := by
  unfold push
  split <;> simp <;> omega

/-- What a pop can do: it succeeds exactly above 0, takes slot SP - 1 and leaves the slot as it was (R17). -/
theorem pop_eq_some {s t : State} {w : Word} (h : s.pop = some (w, t)) :
    ∃ _ : s.sp.val ≠ 0,
      w = s.stack[s.sp.val - 1]'(by omega) ∧ t = { s with sp := ⟨s.sp.val - 1, by omega⟩ } := by
  unfold pop at h
  split at h
  · cases h
  · have h' := Prod.mk.inj (Option.some.inj h)
    exact ⟨‹_›, h'.1.symm, h'.2.symm⟩

/-- A pop fails exactly when the stack is empty. -/
theorem pop_eq_none {s : State} : s.pop = none ↔ s.sp.val = 0 := by
  unfold pop
  split <;> simp [*]

/-- A block load changes registers only. -/
theorem loadRegs_frame (s : State) (k : Nat) (bs : List Byte) : s.loadRegs k bs = { s with v := (s.loadRegs k bs).v } := by
  induction bs generalizing s k with
  | nil => rfl
  | cons b bs ih =>
    simp only [loadRegs]
    split
    · exact ih ..
    · rfl

/-- A block load does not depend on ST. -/
theorem loadRegs_setST (s : State) (k : Nat) (bs : List Byte) (b : Byte) :
    (s.setST b).loadRegs k bs = (s.loadRegs k bs).setST b := by
  induction bs generalizing s k with
  | nil => rfl
  | cons c bs ih =>
    simp only [loadRegs]
    split
    · exact ih (s.setV ⟨k, ‹_›⟩ c) (k + 1)
    · rfl

/-- What a block load leaves in each register: byte `y - k` where there is one, else the old value (R92). -/
theorem getV_loadRegs (s : State) (k : Nat) (bs : List Byte) (y : Reg) :
    (s.loadRegs k bs).getV y = if h : k ≤ y.val ∧ y.val - k < bs.length then bs[y.val - k] else s.getV y := by
  induction bs generalizing s k with
  | nil => simp [loadRegs]
  | cons b bs ih =>
    simp only [loadRegs]
    split
    · rename_i hk
      rw [ih]
      by_cases e : y.val = k
      · have : y = ⟨k, hk⟩ := Fin.ext e
        subst this
        simp
      · have hne : y ≠ ⟨k, hk⟩ := fun c => e (congrArg Fin.val c)
        by_cases hlt : k < y.val
        · have e1 : y.val - k = (y.val - (k + 1)) + 1 := by omega
          simp only [e1, List.getElem_cons_succ, List.length_cons, getV_setV, hne, if_false]
          by_cases hl : y.val - (k + 1) < bs.length
          · rw [dif_pos ⟨by omega, hl⟩, dif_pos ⟨by omega, by omega⟩]
          · rw [dif_neg (by omega), dif_neg (by omega)]
        · rw [dif_neg (by omega), dif_neg (by omega)]
          simp [hne]
    · rename_i hk
      have := y.isLt
      rw [dif_neg (by omega)]

end Sys2Proof.Machine.State
end

