-- ==== Sys2Proof/Laws/Step.lean ====
section
/-! SUPPORT. How a step ends, and what each shared operation of the instructions answers, said once. -/

namespace Sys2Proof.Machine

/-- An instruction that ends with a PC action has one next state. -/
theorem done_eq_next {a : PcAction} {s t : State} : done a s = .next t ↔ t = s.act a := by
  simp [done, eq_comm]

/-- A skip instruction always has a next state: only pc moves (41_flow.md R64). -/
theorem skipIf_eq (c : Bool) (s : State) : skipIf c s = .next (s.setPc (s.pc + if c then 4 else 2)) := by
  cases c <;> rfl

/-- What a step with a next state was: an instruction's, or an unknown opcode's (40_machine_cycle.md R59). -/
theorem step_eq_next {s t : State} (h : step s = .next t) :
    ∃ op, fetch s = .ok op ∧
      ((∃ i, decodeWord op = some i ∧ exec i s = .next t) ∨
        (decodeWord op = none ∧ t = s.setPc (s.pc + 2))) := by
  unfold step at h
  split at h
  · cases h
  · rename_i op hop
    refine ⟨op, hop, ?_⟩
    split at h
    · exact .inl ⟨_, ‹_›, h⟩
    · exact .inr ⟨‹_›, done_eq_next.mp h⟩

/-- Everything a step can be, with what it reports: a fetch fault, an unknown opcode, or an instruction
(40_machine_cycle.md R57, R59, R61, R62). -/
theorem step_cases (s : State) :
    (∃ f, fetch s = .error f ∧ step s = .fault f ∧ stepReport s = faultReport f) ∨
    (∃ op, fetch s = .ok op ∧ decodeWord op = none ∧ step s = .next (s.setPc (s.pc + 2)) ∧
      stepReport s = .unknownOpcode op) ∨
    (∃ op i, fetch s = .ok op ∧ decodeWord op = some i ∧ step s = exec i s ∧
      ((∃ f, exec i s = .fault f ∧ stepReport s = faultReport f) ∨
        (∀ f, exec i s ≠ .fault f) ∧ stepReport s = instrReport i s)) := by
  unfold step stepReport
  cases hf : fetch s with
  | error f => exact .inl ⟨f, rfl, rfl, rfl⟩
  | ok op =>
    cases hd : decodeWord op with
    | none => exact .inr (.inl ⟨op, rfl, hd, by simp only [hd]; rfl, by simp only [hd]⟩)
    | some i =>
      refine .inr (.inr ⟨op, i, rfl, hd, by simp only [hd], ?_⟩)
      cases he : exec i s with
      | next t => exact .inr ⟨by simp, by simp only [hd, he]⟩
      | fault f => exact .inl ⟨f, rfl, by simp only [hd, he]⟩
      | refused r => exact .inr ⟨by simp, by simp only [hd, he]⟩

/-- The lowest key that is down (45_keypad_timers.md R98). -/
theorem lowestKey_eq_some {s : State} {k : Fin 16} (h : s.lowestKey = some k) :
    s.getKey k = true ∧ ∀ j : Fin 16, j < k → s.getKey j = false := by
  rw [State.lowestKey, List.find?_eq_some_iff_getElem] at h
  obtain ⟨hk, n, hn, rfl, hlt⟩ := h
  refine ⟨hk, fun j hj => ?_⟩
  have := hlt j.val (by simpa [Fin.lt_def] using hj)
  simpa using this

/-- No key is down. -/
theorem lowestKey_eq_none {s : State} : s.lowestKey = none ↔ ∀ k : Fin 16, s.getKey k = false := by
  simp [State.lowestKey]

/-- The key a register numbers, when it numbers one (R96, R97). -/
theorem keyOf_of_lt {s : State} {x : Reg} (h : (s.getV x).toNat < 16) :
    s.keyOf x = .ok (s.getKey ⟨(s.getV x).toNat, h⟩) := by
  simp [State.keyOf, h]

/-- A register above 15 numbers no key (R96, R97). -/
theorem keyOf_of_ge {s : State} {x : Reg} (h : 16 ≤ (s.getV x).toNat) :
    s.keyOf x = .error (.keyIndexFault (s.getV x)) := by
  simp only [State.keyOf, Nat.not_lt.mpr h, dite_false]

/-- The digits of a byte as numbers (43_index_memory.md R90). -/
theorem toNat_bcdDigits (v : Byte) :
    (bcdDigits v).map BitVec.toNat = [v.toNat / 100, v.toNat / 10 % 10, v.toNat % 10] := by
  simp [bcdDigits]

/-- Register k is entry k of the block V0 to VX (R91). -/
theorem getElem_regsUpTo (s : State) (x k : Reg) (h : k.val < (s.regsUpTo x).length) :
    (s.regsUpTo x)[k.val] = s.getV k := by
  simp [State.regsUpTo, State.getV]

@[simp] theorem length_regsUpTo (s : State) (x : Reg) : (s.regsUpTo x).length = x.val + 1 := by
  simp [State.regsUpTo]

/-- A register after a block load of bytes from memory (R92). -/
theorem getV_loadRegs_readBytes (s : State) (m : Memory) (a : Nat) (x y : Reg) :
    (s.loadRegs 0 (m.readBytes a (x.val + 1))).getV y = if y ≤ x then m.read (a + y.val) else s.getV y := by
  rw [State.getV_loadRegs]
  by_cases h : y ≤ x
  · have h' : y.val < x.val + 1 := by rw [Fin.le_def] at h; omega
    rw [dif_pos ⟨Nat.zero_le _, by simpa using h'⟩, if_pos h]
    simp
  · have h' : ¬ y.val < x.val + 1 := by rw [Fin.le_def] at h; omega
    rw [dif_neg (by simpa using h'), if_neg h]

/-- What an operation of the host can leave as a next state (46_host_operations.md R102). -/
theorem perform_eq_next {op : HostOp} {s t : State} (h : perform op s = .next t) :
    (∃ bytes, t = hostLoad bytes s) ∨ step s = .next t ∨ t = hostTick s ∨ (∃ k p, t = hostSetKey k p s) ∨
      t = hostReset s ∨ t = s := by
  cases op <;> simp only [perform, Host.Outcome.next.injEq] at h <;> subst_vars
  · exact .inl ⟨_, rfl⟩
  · exact .inr (.inl h)
  · exact .inr (.inr (.inl rfl))
  · exact .inr (.inr (.inr (.inl ⟨_, _, rfl⟩)))
  · exact .inr (.inr (.inr (.inr (.inl rfl))))
  all_goals exact .inr (.inr (.inr (.inr (.inr rfl))))

end Sys2Proof.Machine
end

