-- ==== Sys2Proof/Tests/Slice0.lean ====
section
/-! SUPPORT. Tests: the well-formedness smoke test, a decoded word for every instruction, one step per instruction, and
a witness for the hypotheses of each statement. Expected values are those of spec/95_test_vectors.md (its row's name
stands in the comment) or of the examples inside the rules; none is the model's own answer. -/

namespace Sys2Proof.Tests

open Sys2Proof.Machine Sys2Proof.Safety

/-- The reset state with an instruction word at 0x200. -/
def start (w : Nat) : State := State.reset.withFetchWord 16 w

/-- The result is a next state, and it passes the test. -/
def ends (r : Result) (q : State → Bool) : Bool :=
  match r with
  | .next t => q t
  | .fault _ => false
  | .refused _ => false

/-- The result is this fault. -/
def stops (r : Result) (f : Fault) : Bool :=
  match r with
  | .next _ => false
  | .fault g => g == f
  | .refused _ => false

/-- A stack depth, for a state built by hand. -/
def depth (s : State) (n : Fin 17) : State := { s with sp := n }

/-- A stack slot, for a state built by hand. -/
def slot (s : State) (k : Fin 16) (w : Word) : State := { s with stack := s.stack.set k.val w }

/-- A memory byte, for a state built by hand. -/
def poke (s : State) (a : Nat) (b : Byte) : State := s.setMem (s.mem.write a b)

/-! ### Well-formedness: an ill-formed word for each fixed field of the opcode map (30_encoding.md R49, R51) -/

/-- Family 0, V-UNK-1 to V-UNK-5. -/
theorem test_wf_family0 : ([0x0000, 0x00E1, 0x00FE, 0x01E0, 0x0FEE] : List Word).any wellFormedWord = false := by decide

/-- Family 5, V-UNK-6 and S14. -/
theorem test_wf_family5 : ([0x5001, 0x5121] : List Word).any wellFormedWord = false := by decide

/-- Family 8, V-UNK-7 and V-UNK-8. -/
theorem test_wf_family8 : ([0x8008, 0x800D, 0x800F] : List Word).any wellFormedWord = false := by decide

/-- Family 9, V-UNK-9. -/
theorem test_wf_family9 : ([0x9001, 0x912F] : List Word).any wellFormedWord = false := by decide

/-- Family E, V-UNK-10 and V-UNK-11. -/
theorem test_wf_familyE : ([0xE09F, 0xE0A0] : List Word).any wellFormedWord = false := by decide

/-- Family F, V-UNK-12 to V-UNK-14. -/
theorem test_wf_familyF : ([0xF000, 0xF01F, 0xF075, 0xF085, 0xFFFF] : List Word).any wellFormedWord = false := by decide

/-- Words at the two ends of each row are well formed. -/
theorem test_wf_accepts : ([0x00E0, 0x1000, 0x5FF0, 0x8FFE, 0x9000, 0xDFFF, 0xEFA1, 0xFF65] : List Word).all wellFormedWord = true := by
  decide

/-- The decoder rejects an ill-formed word, and too few bytes, by name. -/
theorem test_decode_rejects : decode [0x5A, 0xB1] = .error (.unknownOpcode 0x5AB1) ∧ decode [0x12] = .error .truncated := by
  decide

/-! ### Decoding: every instruction's word, bit by bit from 30_encoding.md R45 and R51 -/

theorem test_decode_00E0 : decodeWord 0b0000000011100000#16 = some .i00E0 := by decide
theorem test_decode_00EE : decodeWord 0b0000000011101110#16 = some .i00EE := by decide
theorem test_decode_1NNN : decodeWord 0b0001101010111100#16 = some (.i1NNN 0xABC) := by decide
theorem test_decode_2NNN : decodeWord 0b0010001100000001#16 = some (.i2NNN 0x301) := by decide
theorem test_decode_3XNN : decodeWord 0b0011101000000101#16 = some (.i3XNN 10 0x05) := by decide
theorem test_decode_4XNN : decodeWord 0b0100101000000101#16 = some (.i4XNN 10 0x05) := by decide
theorem test_decode_5XY0 : decodeWord 0b0101000100100000#16 = some (.i5XY0 1 2) := by decide
theorem test_decode_6XNN : decodeWord 0b0110111110101011#16 = some (.i6XNN 15 0xAB) := by decide
theorem test_decode_7XNN : decodeWord 0b0111101011111111#16 = some (.i7XNN 10 0xFF) := by decide
theorem test_decode_8XY0 : decodeWord 0b1000000100100000#16 = some (.i8XY0 1 2) := by decide
theorem test_decode_8XY1 : decodeWord 0b1000000100100001#16 = some (.i8XY1 1 2) := by decide
theorem test_decode_8XY2 : decodeWord 0b1000000100100010#16 = some (.i8XY2 1 2) := by decide
theorem test_decode_8XY3 : decodeWord 0b1000111100100011#16 = some (.i8XY3 15 2) := by decide
theorem test_decode_8XY4 : decodeWord 0b1000000000010100#16 = some (.i8XY4 0 1) := by decide
theorem test_decode_8XY5 : decodeWord 0b1000000100100101#16 = some (.i8XY5 1 2) := by decide
theorem test_decode_8XY6 : decodeWord 0b1000000110100110#16 = some (.i8XY6 1 10) := by decide
theorem test_decode_8XY7 : decodeWord 0b1000000100100111#16 = some (.i8XY7 1 2) := by decide
theorem test_decode_8XYE : decodeWord 0b1000000110101110#16 = some (.i8XYE 1 10) := by decide
theorem test_decode_9XY0 : decodeWord 0b1001000100100000#16 = some (.i9XY0 1 2) := by decide
theorem test_decode_ANNN : decodeWord 0b1010001011110000#16 = some (.iANNN 0x2F0) := by decide
theorem test_decode_BNNN : decodeWord 0b1011001100000000#16 = some (.iBNNN 0x300) := by decide
theorem test_decode_CXNN : decodeWord 0b1100001100001111#16 = some (.iCXNN 3 0x0F) := by decide
theorem test_decode_DXYN : decodeWord 0b1101000000010101#16 = some (.iDXYN 0 1 5) := by decide
theorem test_decode_EX9E : decodeWord 0b1110010110011110#16 = some (.iEX9E 5) := by decide
theorem test_decode_EXA1 : decodeWord 0b1110010110100001#16 = some (.iEXA1 5) := by decide
theorem test_decode_FX07 : decodeWord 0b1111001000000111#16 = some (.iFX07 2) := by decide
theorem test_decode_FX0A : decodeWord 0b1111010000001010#16 = some (.iFX0A 4) := by decide
theorem test_decode_FX15 : decodeWord 0b1111001000010101#16 = some (.iFX15 2) := by decide
theorem test_decode_FX18 : decodeWord 0b1111001100011000#16 = some (.iFX18 3) := by decide
theorem test_decode_FX1E : decodeWord 0b1111001000011110#16 = some (.iFX1E 2) := by decide
theorem test_decode_FX29 : decodeWord 0b1111001100101001#16 = some (.iFX29 3) := by decide
theorem test_decode_FX33 : decodeWord 0b1111000000110011#16 = some (.iFX33 0) := by decide
theorem test_decode_FX55 : decodeWord 0b1111001001010101#16 = some (.iFX55 2) := by decide
theorem test_decode_FX65 : decodeWord 0b1111000101100101#16 = some (.iFX65 1) := by decide

/-- The encoder writes the same bits, high byte first (R46, 20_memory.md R31). -/
theorem test_encode_DXYN : encodeBytes (.iDXYN 0 1 5) = [0xD0, 0x15] := by decide

/-- The table's numbering: one word, its own bits. -/
theorem test_decodeTableWord : decodeTableWord 16 0x8FF4 = some (.i8XY4 15 15) := by decide

/-! ### Fetch and unknown opcodes -/

/-- V-FET-1: the byte at the lower address is the high byte. -/
theorem test_fetch_big_endian :
    ends (step (poke (poke State.reset 0x200 0x12) 0x201 0x34)) (fun t => t.pc == 0x0234) = true := by decide

/-- V-FET-2: the last fetchable address. -/
theorem test_fetch_last :
    ends (step ((poke (poke State.reset 0xFFE 0x60) 0xFFF 0x07).setPc 0xFFE)) (fun t => t.getV 0 == 0x07 && t.pc == 0x1000) = true := by
  decide

/-- V-FET-3: one byte of the fetch lies outside. -/
theorem test_fetch_faults_at_FFF : stops (step (State.reset.setPc 0xFFF)) (.addressFault .fetch 0x1000) = true := by decide

/-- V-FET-4: both bytes lie outside. -/
theorem test_fetch_faults_at_10FE : stops (step (State.reset.setPc 0x10FE)) (.addressFault .fetch 0x10FE) = true := by decide

/-- V-FET-5: an odd pc is legal. -/
theorem test_fetch_odd :
    ends (step ((poke (poke State.reset 0x201 0x6A) 0x202 0x55).setPc 0x201)) (fun t => t.getV 10 == 0x55 && t.pc == 0x203) = true := by
  decide

/-- 40_machine_cycle.md R61, example. -/
theorem test_unknown_opcode :
    ends (step (start 0x5AB1)) (fun t => t.pc == 0x202) = true ∧ stepReport (start 0x5AB1) = .unknownOpcode 0x5AB1 := by decide

/-! ### Control transfer -/

/-- S9 -/
theorem test_00EE_underflow :
    ends (step (start 0x00EE)) (fun t => t.pc == 0x200 && t.sp == 0) = true ∧ stepReport (start 0x00EE) = .stackUnderflow := by
  decide

/-- V-FLW-6 -/
theorem test_00EE_from_full :
    ends (step (slot (depth (start 0x00EE) 16) 15 0x031E)) (fun t => t.pc == 0x31E && t.sp == 15 && t.stack[15] == 0x31E) = true := by
  decide

/-- R66, example. -/
theorem test_1NNN : ends (step (start 0x1ABC)) (fun t => t.pc == 0xABC) = true := by decide

/-- V-FLW-4 -/
theorem test_2NNN_last :
    ends (step (depth (start 0x2ABC) 15)) (fun t => t.pc == 0xABC && t.sp == 16 && t.stack[15] == 0x202) = true := by decide

/-- V-FLW-5 -/
theorem test_2NNN_overflow :
    ends (step (slot (depth (start 0x2ABC) 16) 15 0x030F)) (fun t => t.pc == 0x200 && t.sp == 16 && t.stack[15] == 0x30F) = true ∧
      stepReport (depth (start 0x2ABC) 16) = .stackOverflow := by decide

/-- V-FLW-8 -/
theorem test_3XNN_skips : ends (step ((start 0x30FF).setV 0 0xFF)) (fun t => t.pc == 0x204) = true := by decide

/-- R68, example. -/
theorem test_3XNN_goes_on : ends (step ((start 0x3A05).setV 10 0x06)) (fun t => t.pc == 0x202) = true := by decide

/-- V-FLW-9 -/
theorem test_4XNN_goes_on : ends (step ((start 0x40FF).setV 0 0xFF)) (fun t => t.pc == 0x202) = true := by decide

/-- R69, example. -/
theorem test_4XNN_skips : ends (step ((start 0x4A05).setV 10 0x06)) (fun t => t.pc == 0x204) = true := by decide

/-- V-FLW-12 -/
theorem test_5XY0_same : ends (step ((start 0x5FF0).setV 15 0x09)) (fun t => t.pc == 0x204) = true := by decide

/-- V-FLW-14 -/
theorem test_5XY0_goes_on : ends (step ((start 0x5010).setV 0 0x01)) (fun t => t.pc == 0x202) = true := by decide

/-- V-FLW-13 -/
theorem test_9XY0_same : ends (step ((start 0x9FF0).setV 15 0x09)) (fun t => t.pc == 0x202) = true := by decide

/-- V-FLW-15 -/
theorem test_9XY0_skips : ends (step ((start 0x9010).setV 0 0x01)) (fun t => t.pc == 0x204) = true := by decide

/-- V-FLW-17: the sum is not masked to 12 bits. -/
theorem test_BNNN_no_mask : ends (step ((start 0xBFFF).setV 0 0xFF)) (fun t => t.pc == 0x10FE) = true := by decide

/-- V-FLW-18: the X nibble selects no register. -/
theorem test_BNNN_uses_V0 : ends (step ((start 0xB300).setV 3 0x77)) (fun t => t.pc == 0x300) = true := by decide

/-! ### Register load, arithmetic and logic -/

/-- V-ALU-38 -/
theorem test_6XNN : ends (step (start 0x6FAB)) (fun t => t.getV 15 == 0xAB && t.pc == 0x202) = true := by decide

/-- V-ALU-1: no carry is written. -/
theorem test_7XNN_no_flag :
    ends (step (((start 0x70FF).setV 0 0xFF).setV 15 0x55)) (fun t => t.getV 0 == 0xFE && t.getV 15 == 0x55) = true := by decide

/-- V-ALU-2 -/
theorem test_7XNN_VF : ends (step ((start 0x7FFF).setV 15 0x01)) (fun t => t.getV 15 == 0x00) = true := by decide

/-- V-ALU-37 -/
theorem test_8XY0 : ends (step ((start 0x8120).setV 2 0x7E)) (fun t => t.getV 1 == 0x7E && t.getV 2 == 0x7E) = true := by decide

/-- V-ALU-3: VF is not cleared. -/
theorem test_8XY1 :
    ends (step ((((start 0x8121).setV 1 0xAA).setV 2 0x55).setV 15 0x01)) (fun t => t.getV 1 == 0xFF && t.getV 15 == 0x01) = true := by
  decide

/-- V-ALU-4 -/
theorem test_8XY2 : ends (step (((start 0x8122).setV 1 0x3C).setV 2 0x0F)) (fun t => t.getV 1 == 0x0C) = true := by decide

/-- V-ALU-5 -/
theorem test_8XY3 : ends (step (((start 0x8F23).setV 15 0xFF).setV 2 0x0F)) (fun t => t.getV 15 == 0xF0) = true := by decide

/-- S5 -/
theorem test_8XY4_carry :
    ends (step (((start 0x8014).setV 0 0xFF).setV 1 0x01)) (fun t => t.getV 0 == 0x00 && t.getV 15 == 1) = true := by decide

/-- V-ALU-9: X = F, the sum is lost. -/
theorem test_8XY4_flag_wins :
    ends (step (((start 0x8F14).setV 15 0x01).setV 1 0x02)) (fun t => t.getV 15 == 0 && t.getV 1 == 0x02) = true := by decide

/-- S6 -/
theorem test_8XY5_borrow :
    ends (step ((((start 0x8015).setV 0 0x01).setV 1 0x02).setV 15 0x01)) (fun t => t.getV 0 == 0xFF && t.getV 15 == 0) = true := by
  decide

/-- V-ALU-17: equal operands, Y = F. -/
theorem test_8XY5_equal :
    ends (step (((start 0x80F5).setV 0 0x05).setV 15 0x05)) (fun t => t.getV 0 == 0x00 && t.getV 15 == 1) = true := by decide

/-- V-ALU-18: VY is ignored. -/
theorem test_8XY6 :
    ends (step (((start 0x8126).setV 1 0x05).setV 2 0x99)) (fun t => t.getV 1 == 0x02 && t.getV 15 == 1 && t.getV 2 == 0x99) = true := by
  decide

/-- V-ALU-21: X = F, the flag wins. -/
theorem test_8XY6_flag_wins : ends (step ((start 0x8F06).setV 15 0x03)) (fun t => t.getV 15 == 1) = true := by decide

/-- V-ALU-24 -/
theorem test_8XY7_borrow :
    ends (step (((start 0x8127).setV 1 0x0A).setV 2 0x03)) (fun t => t.getV 1 == 0xF9 && t.getV 15 == 0) = true := by decide

/-- V-ALU-27 -/
theorem test_8XY7_flag_wins : ends (step (((start 0x8F17).setV 15 0x03).setV 1 0x05)) (fun t => t.getV 15 == 1) = true := by decide

/-- V-ALU-29: VY is ignored. -/
theorem test_8XYE :
    ends (step (((start 0x81AE).setV 1 0x7F).setV 10 0xFF)) (fun t => t.getV 1 == 0xFE && t.getV 15 == 0) = true := by decide

/-- V-ALU-31: X = F, the flag wins. -/
theorem test_8XYE_flag_wins : ends (step ((start 0x8F0E).setV 15 0x81)) (fun t => t.getV 15 == 1) = true := by decide

/-- V-ALU-36: whatever byte is drawn, the result is that byte and the mask, and the next draw is another. -/
theorem test_CXNN :
    ∃ t, exec (.iCXNN 3 0x0F) State.reset = .next t ∧ t.getV 3 = Config.freeByte 0 &&& 0x0F ∧ t.draws = 1 :=
  ⟨_, rfl, rfl, rfl⟩

/-- V-ALU-34: a zero mask. -/
theorem test_CXNN_zero_mask : ∃ t, exec (.iCXNN 0 0x00) State.reset = .next t ∧ t.getV 0 = 0x00 :=
  ⟨_, rfl, BitVec.and_zero⟩

/-! ### Index register and memory transfer -/

/-- V-IDX-1 -/
theorem test_ANNN : ends (step ((start 0xA000).setI 0xFFFF)) (fun t => t.i == 0x0000 && t.pc == 0x202) = true := by decide

/-- V-IDX-3: the sum passes 0x0FFF. -/
theorem test_FX1E_past_FFF :
    ends (step (((start 0xF01E).setI 0x0FFF).setV 0 0x01)) (fun t => t.i == 0x1000 && t.getV 15 == 0) = true := by decide

/-- V-IDX-4: the sum wraps at 16 bits. -/
theorem test_FX1E_wraps :
    ends (step ((((start 0xF01E).setI 0xFFFF).setV 0 0x01).setV 15 0x07)) (fun t => t.i == 0x0000 && t.getV 15 == 0x07) = true := by
  decide

/-- V-IDX-7 -/
theorem test_FX29_last_digit : ends (step ((start 0xF029).setV 0 0x0F)) (fun t => t.i == 0x009B) = true := by decide

/-- V-IDX-9: above 15 the open parameter. -/
theorem test_FX29_high : ∃ t, exec (.iFX29 0) (State.reset.setV 0 0x10) = .next t ∧ t.i = Config.fx29High 0x10 ∧ t.pc = 0x202 :=
  ⟨_, rfl, rfl, rfl⟩

/-- V-IDX-11: the last legal base. -/
theorem test_FX33_last :
    ends (step (((start 0xF033).setI 0xFFD).setV 0 0xFF))
      (fun t => t.byteAt 0xFFD == 2 && t.byteAt 0xFFE == 5 && t.byteAt 0xFFF == 5 && t.i == 0xFFD) = true := by decide

/-- V-IDX-12 -/
theorem test_FX33_faults : stops (step ((start 0xF033).setI 0xFFE)) (.addressFault .write 0x1000) = true := by decide

/-- R91, example. -/
theorem test_FX55 :
    ends (step (((((start 0xF255).setI 0x400).setV 0 0x11).setV 1 0x22).setV 2 0x33))
      (fun t => t.byteAt 0x400 == 0x11 && t.byteAt 0x402 == 0x33 && t.byteAt 0x403 == 0x00 && t.i == 0x400) = true := by decide

/-- V-IDX-18 -/
theorem test_FX55_faults : stops (step ((start 0xF155).setI 0xFFF)) (.addressFault .write 0x1000) = true := by decide

/-- V-IDX-21: the instruction's own bytes. -/
theorem test_FX65 :
    ends (step (((start 0xF365).setI 0x200).setV 4 0x99))
      (fun t => t.getV 0 == 0xF3 && t.getV 1 == 0x65 && t.getV 2 == 0 && t.getV 3 == 0 && t.getV 4 == 0x99) = true := by decide

/-- V-IDX-24 -/
theorem test_FX65_faults : stops (step ((start 0xFF65).setI 0xFF1)) (.addressFault .read 0x1000) = true := by decide

/-! ### Display -/

/-- R93: a pixel that was on is off. -/
theorem test_00E0 :
    ends (step ((start 0x00E0).setFb (clearFb.toggle 63 31))) (fun t => t.fb.pixel 63 31 == false && t.pc == 0x202) = true := by decide

/-- V-DRW-8: both coordinates wrap, bit 0 is column offset 7. -/
theorem test_DXYN_wraps :
    ends (step (poke (((start 0xD011).setI 0x300).setV 0 0xFF |>.setV 1 0xFF) 0x300 0x81))
      (fun t => t.fb.pixel 63 31 && t.fb.pixel 6 31 && t.fb.pixel 0 31 == false && t.getV 15 == 0) = true := by decide

/-- V-DRW-6: a pixel that was on goes off, and VF is 1. -/
theorem test_DXYN_collides :
    ends (step (poke (((start 0xD011).setI 0x300).setFb (clearFb.toggle 0 0)) 0x300 0xF0))
      (fun t => t.fb.pixel 0 0 == false && t.fb.pixel 1 0 && t.fb.pixel 3 0 && t.fb.pixel 4 0 == false && t.getV 15 == 1) = true := by
  decide

/-! ### Keypad and timers -/

/-- V-KEY-1 -/
theorem test_EX9E_skips :
    ends (step (((start 0xE09E).setV 0 0x0F).setKey 15 true)) (fun t => t.pc == 0x204) = true := by decide

/-- V-KEY-5 -/
theorem test_EX9E_faults : stops (step ((start 0xE09E).setV 0 0x10)) (.keyIndexFault 0x10) = true := by decide

/-- V-KEY-3 -/
theorem test_EXA1_goes_on : ends (step ((start 0xE0A1).setKey 0 true)) (fun t => t.pc == 0x202) = true := by decide

/-- V-KEY-6 -/
theorem test_EXA1_faults : stops (step ((start 0xE0A1).setV 0 0xFF)) (.keyIndexFault 0xFF) = true := by decide

/-- V-KEY-7 -/
theorem test_FX0A_lowest :
    ends (step (((start 0xF00A).setKey 7 true).setKey 3 true)) (fun t => t.getV 0 == 3 && t.pc == 0x202) = true := by decide

/-- V-KEY-9 -/
theorem test_FX0A_holds :
    ends (step (start 0xF00A)) (fun t => t.pc == 0x200 && t.getV 0 == 0) = true ∧ stepReport (start 0xF00A) = .normal := by decide

/-- V-TMR-2 -/
theorem test_FX07 : ends (step ((start 0xFF07).setDT 0x03)) (fun t => t.getV 15 == 0x03 && t.dt == 0x03) = true := by decide

/-- V-TMR-3 -/
theorem test_FX15 : ends (step ((start 0xF015).setV 0 0xFF)) (fun t => t.dt == 0xFF && t.st == 0) = true := by decide

/-- V-TMR-5 -/
theorem test_FX18 : ends (step ((start 0xF018).setV 0 0x01)) (fun t => t.st == 0x01 && t.dt == 0) = true := by decide

/-! ### Host operations and reset -/

/-- V-TMR-6, the first tick and the last. -/
theorem test_tick :
    ends (perform .tickTimers ((State.reset.setDT 2).setST 1)) (fun t => t.dt == 1 && t.st == 0) = true ∧
      ends (perform .tickTimers State.reset) (fun t => t.dt == 0 && t.st == 0) = true := by decide

/-- V-HST-1: the tail is kept. -/
theorem test_load_tail :
    ends (perform (.load [0xAA, 0xBB]) (hostLoad [1, 2, 3] State.reset))
      (fun t => t.byteAt 0x200 == 0xAA && t.byteAt 0x201 == 0xBB && t.byteAt 0x202 == 3 && t.byteAt 0x50 == 0xF0) = true := by decide

/-- V-HST-2 -/
theorem test_load_too_large :
    ∀ bytes : List Byte, bytes.length = 3585 → answer (.load bytes) State.reset = .loadTooLarge := by
  intro bytes h
  simp [answer, Config.romMax, h]

/-- V-HST-4, and an index that is no key (R105). -/
theorem test_set_key :
    ends (perform (.setKey 3 true) State.reset) (fun t => t.getKey 3) = true ∧
      answer (.setKey 16 true) State.reset = .keyIndexRefused := by decide

/-- V-HST-3 -/
theorem test_host_reset :
    ends (perform .reset (((poke State.reset 0x200 0x12).setKey 3 true).setPc 0x300))
      (fun t => t.byteAt 0x200 == 0 && t.byteAt 0x50 == 0xF0 && t.getKey 3 == false && t.pc == 0x200) = true := by decide

/-- R25, R26: the edges of the font table. -/
theorem test_reset_memory :
    State.reset.byteAt 0x04F = 0x00 ∧ State.reset.byteAt 0x050 = 0xF0 ∧ State.reset.byteAt 0x09F = 0x80 ∧
      State.reset.byteAt 0x0A0 = 0x00 ∧ State.reset.mem.wf = true := by decide

/-! ### Witnesses: states and operands that meet the hypotheses of the statements, each clause at a boundary -/

theorem test_witness_DecodeAgreesWithOpcodeMap :
    decodeWord 0x9FF0 = some (.i9XY0 15 15) ∧ rowOf (.i9XY0 0 0) ∈ opcodeTable ∧ (0x9FF0 : Word) &&& 0xF00F = 0x9000 := by decide

theorem test_witness_StepRunsDecodedInstruction :
    fetch (start 0xFF65) = .ok 0xFF65 ∧ decodeWord 0xFF65 = some (.iFX65 15) := by decide

theorem test_witness_UnknownOpcodeAdvances : fetch State.reset = .ok 0x0000 ∧ decodeWord 0x0000 = none := by decide

theorem test_witness_OnlyListedInstructionsFault :
    stops (exec (.iDXYN 0 0 1) (State.reset.setI 0x1000)) (.addressFault .read 0x1000) = true ∧
      stops (exec (.iFX65 1) (State.reset.setI 0xFFF)) (.addressFault .read 0x1000) = true ∧
      stops (exec (.iFX33 0) (State.reset.setI 0xFFFF)) (.addressFault .write 0xFFFF) = true ∧
      stops (exec (.iFX55 15) (State.reset.setI 0xFF1)) (.addressFault .write 0x1000) = true ∧
      stops (exec (.iEX9E 0) (State.reset.setV 0 16)) (.keyIndexFault 16) = true ∧
      stops (exec (.iEXA1 0) (State.reset.setV 0 16)) (.keyIndexFault 16) = true := by decide

theorem test_witness_ReportMatchesStep :
    stepReport (start 0x1200) = .normal ∧ stepReport (start 0x0000) = .unknownOpcode 0x0000 ∧
      stepReport (depth (start 0x2200) 16) = .stackOverflow ∧ stepReport (start 0x00EE) = .stackUnderflow ∧
      stepReport (State.reset.setPc 0xFFF) = .addressFault .fetch 0x1000 ∧
      stepReport ((start 0xE09E).setV 0 0x10) = .keyIndexFault 0x10 := by decide

theorem test_witness_stack_depths :
    (depth State.reset 15).sp.val < 16 ∧ (depth State.reset 16).sp.val = 16 ∧
      (depth State.reset 16).sp.val = (15 : Fin 16).val + 1 ∧ (depth State.reset 1).sp.val = (0 : Fin 16).val + 1 ∧
      State.reset.sp.val = 0 := by decide

theorem test_witness_FlagWritersAreSix :
    ends (exec (.i8XY4 15 1) State.reset) (fun t => t.getV 15 == 0) = true ∧ writesFlag (.i8XY4 15 1) = true ∧
      ends (exec (.iFX65 14) State.reset) (fun t => t.getV 15 == 0) = true ∧ writesFlag (.iFX65 14) = false ∧
      plainDest (.iFX65 14) ≠ some 15 := by decide

theorem test_witness_GlyphAddressOfDigit :
    ((State.reset.setV 0 0x0F).getV 0).toNat ≤ 0x0F ∧ 0x0F < ((State.reset.setV 0 0x10).getV 0).toNat := by decide

theorem test_witness_StoreDecimalDigits :
    (State.reset.setI 0xFFD).i.toNat + 2 ≤ 0xFFF ∧ 0xFFF < (State.reset.setI 0xFFE).i.toNat + 2 := by decide

/-- FX55 and FX65: the last block that fits and the first that does not; a register inside and one above the block. -/
theorem test_witness_register_blocks :
    (State.reset.setI 0xFF0).i.toNat + (15 : Reg).val ≤ 0xFFF ∧ 0xFFF < (State.reset.setI 0xFF1).i.toNat + (15 : Reg).val ∧
      (15 : Reg) ≤ 15 ∧ (14 : Reg) < 15 := by decide

theorem test_witness_BlockLoadReturnsBlockStore :
    ends (exec (.iFX55 1) ((State.reset.setI 0xFFE).setV 0 7))
      (fun t => t.i == 0xFFE && ends (exec (.iFX65 1) t) (fun w => w.getV 0 == 7)) = true := by decide

theorem test_witness_StoredCodeIsFetchedNext :
    1 ≤ (1 : Reg).val ∧ (State.reset.setI 0x202).i = (State.reset.setI 0x202).pc + 2 ∧
      (State.reset.setI 0x202).i.toNat + (1 : Reg).val ≤ 0xFFF := by decide

/-- DXYN: no row with I anywhere, the last sprite that fits, the first that does not (V-DRW-9, V-DRW-13, V-DRW-14). -/
theorem test_witness_DrawTogglesSetBits :
    (0 : Nibble).toNat = 0 ∧ (State.reset.setI 0xFF1).i.toNat + (15 : Nibble).toNat ≤ 0x1000 ∧
      1 ≤ (15 : Nibble).toNat ∧ 0x1000 < (State.reset.setI 0xFF2).i.toNat + (15 : Nibble).toNat := by decide

/-- V-DRW-9 and V-DRW-14. -/
theorem test_witness_draw_edges :
    ends (exec (.iDXYN 0 1 0) ((State.reset.setI 0xFFFF).setV 15 5)) (fun t => t.getV 15 == 0) = true ∧
      stops (exec (.iDXYN 0 1 15) (State.reset.setI 0xFF2)) (.addressFault .read 0x1000) = true := by decide

/-- DXYN's collision clauses: a set bit over an on pixel, and none. -/
theorem test_witness_collision :
    (State.reset.setI 0x50).byteAt ((State.reset.setI 0x50).effAddr 0) = 0xF0 ∧ (0xF0 : Byte).getLsbD (7 - 0) = true ∧
      (clearFb.toggle 0 0).pixel 0 0 = true ∧ (0 : Fin 64).val = (0 + 0) % 64 ∧ (0 : Fin 32).val = (0 + 0) % 32 ∧
      clearFb.pixel 0 0 = false := by decide

theorem test_witness_DrawTwiceRestores :
    (0 : Reg) ≠ 15 ∧ (1 : Reg) ≠ 15 ∧ (State.reset.setI 0x50).i.toNat + (1 : Nibble).toNat ≤ 0x1000 ∧
      ends (exec (.iDXYN 0 1 1) (State.reset.setI 0x50)) (fun t => t.getV 15 == 0) = true ∧
      ((State.reset.setI 0x50).byteAt 0x50).getLsbD 7 = true := by decide

theorem test_witness_SkipTestsKey :
    ((State.reset.setV 0 15).getV 0).toNat = (15 : Fin 16).val ∧ 15 < ((State.reset.setV 0 16).getV 0).toNat := by decide

theorem test_witness_WaitTakesLowestKey :
    (State.reset.setKey 15 true).getKey 15 = true ∧ (∀ j : Fin 16, j < 15 → (State.reset.setKey 15 true).getKey j = false) ∧
      (∀ k : Fin 16, State.reset.getKey k = false) := by decide

/-- The invariant holds at reset and at the largest pc a jump can reach; a step from each kept state exists. -/
theorem test_witness_StepKeepsInvariant :
    Inv State.reset ∧ ends (step State.reset) (fun t => t.pc == 0x202) = true ∧ Inv (State.reset.setPc 0x10FE) := by decide

theorem test_witness_HistoryKeepsInvariant :
    ends (history [.load [0x12, 0x00], .setKey 15 true, .stepCycle, .tickTimers] State.reset) (fun t => t.pc == 0x200) = true := by
  decide

theorem test_witness_AccessMatrixHolds :
    ends (exec (.iFX55 15) (State.reset.setI 0xFF0)) (fun _ => true) = true ∧ mayWrite (.iFX55 15) = [.pc, .mem] := by decide

theorem test_witness_StepLeavesKeysAndTimers :
    ends (step (start 0x6000)) (fun _ => true) = true ∧ instrAt (start 0x6000) = some (.i6XNN 0 0) := by decide

theorem test_witness_NoInstructionReadsST :
    stops (exec (.iFX33 0) (State.reset.setI 0xFFE)) (.addressFault .write 0x1000) = true ∧
      ends (exec (.iFX18 0) State.reset) (fun _ => true) = true ∧ ends (exec (.iFX07 0) State.reset) (fun _ => true) = true := by
  decide

theorem test_witness_StackFaultRepeats : hung (start 0x00EE) = true ∧ hung (depth (start 0x2200) 16) = true := by decide

/-- V-FLW-1 -/
theorem test_witness_EndedIsFixedPoint : ended (start 0x1200) = true ∧ ended (start 0x1202) = false := by decide

theorem test_witness_HeldWaitEndsWithKey : waiting (start 0xF40A) = true ∧ waiting ((start 0xF40A).setKey 9 true) = false := by decide

/-- S1, S2: the longest ROM accepted and the shortest refused; an address below, the last one, and one past a short ROM. -/
theorem test_witness_LoadCopiesOrRefuses :
    (List.replicate 3584 (0x11 : Byte)).length ≤ 3584 ∧ 3584 < (List.replicate 3585 (0x11 : Byte)).length ∧
      0x1FF < 0x200 ∧ 0x200 + ([] : List Byte).length ≤ 0x200 := by
  rw [List.length_replicate, List.length_replicate]
  decide

theorem test_witness_SetKeyChangesOneKey : 15 = (15 : Fin 16).val ∧ 15 < 16 := by decide

theorem test_witness_ViewsShowState : (2047 : Fin 2048).val = (31 : Fin 32).val * 64 + (63 : Fin 64).val := by decide

/-- A step that is safe, and two that are not (R112, R131). -/
theorem test_stepSafe :
    stepSafe (start 0x6005) = true ∧ stepSafe (start 0x00EE) = false ∧ stepSafe (State.reset.setPc 0xFFF) = false ∧
      safeHistory [.setKey 16 true, .stepCycle, .framebuffer] (start 0x6005) = true := by decide

end Sys2Proof.Tests
end

/-! SUPPORT. Proofs of the statements about the state (10_state.md): the access matrix, the writers of VF, the invariant,
the independence of ST, and the state after reset. The instructions are grouped by the shared operation they end in; each
operation's rule is proved once. -/

namespace Sys2Proof.Machine

/-! ### What the instructions with more than one ending can answer -/

/-- EX9E ends as a skip on the key's state, when VX numbers a key (45_keypad_timers.md R96). -/
theorem execEX9E_eq_next {x : Reg} {s t : State} (h : execEX9E x s = .next t) :
    ∃ pressed, s.keyOf x = .ok pressed ∧ skipIf pressed s = .next t := by
  unfold execEX9E at h
  split at h
  · exact ⟨_, ‹_›, h⟩
  · cases h

/-- EXA1 ends as a skip on the key's state, when VX numbers a key (R97). -/
theorem execEXA1_eq_next {x : Reg} {s t : State} (h : execEXA1 x s = .next t) :
    ∃ pressed, s.keyOf x = .ok pressed ∧ skipIf (!pressed) s = .next t := by
  unfold execEXA1 at h
  split at h
  · exact ⟨_, ‹_›, h⟩
  · cases h

/-- FX0A takes the lowest key that is down and goes on; with none down it changes nothing (R98). -/
theorem execFX0A_eq_next {x : Reg} {s t : State} (h : execFX0A x s = .next t) :
    (∃ k, s.lowestKey = some k ∧ done .cont (s.setV x (BitVec.ofNat 8 k.val)) = .next t) ∨
      (s.lowestKey = none ∧ t = s) := by
  unfold execFX0A at h
  split at h
  · exact .inl ⟨_, ‹_›, h⟩
  · exact .inr ⟨‹_›, done_eq_next.mp h⟩

/-- 00EE lowers SP and jumps to the slot it then names; with SP = 0 it changes nothing (41_flow.md R65). -/
theorem exec00EE_eq_next {s t : State} (h : exec00EE s = .next t) :
    (∃ k : Fin 16, s.sp.val = k.val + 1 ∧ t = { s with sp := k.castSucc, pc := s.stack[k.val] }) ∨
      (s.sp.val = 0 ∧ t = s) := by
  unfold exec00EE at h
  split at h
  · rename_i hpop
    obtain ⟨hsp, rfl, rfl⟩ := State.pop_eq_some hpop
    exact .inl ⟨⟨s.sp.val - 1, by omega⟩, (Nat.succ_pred hsp).symm, done_eq_next.mp h⟩
  · exact .inr ⟨State.pop_eq_none.mp ‹_›, done_eq_next.mp h⟩

/-- 2NNN stores pc + 2 in the slot SP names, raises SP and jumps to NNN; with SP = 16 it changes nothing (R67). -/
theorem exec2NNN_eq_next {nnn : Addr12} {s t : State} (h : exec2NNN nnn s = .next t) :
    (∃ k : Fin 16, s.sp.val = k.val ∧
      t = { s with stack := s.stack.set k.val (s.pc + 2), sp := k.succ, pc := zext16 nnn }) ∨
      (s.sp.val = 16 ∧ t = s) := by
  unfold exec2NNN at h
  split at h
  · rename_i hpush
    obtain ⟨hsp, rfl⟩ := State.push_eq_some hpush
    exact .inl ⟨⟨s.sp.val, hsp⟩, rfl, done_eq_next.mp h⟩
  · exact .inr ⟨State.push_eq_none.mp ‹_›, done_eq_next.mp h⟩

@[simp] theorem State.getKey_draw (s : State) (k : Fin 16) : s.draw.2.getKey k = s.getKey k := rfl
@[simp] theorem State.byteAt_draw (s : State) (a : Nat) : s.draw.2.byteAt a = s.byteAt a := rfl

end Sys2Proof.Machine

namespace Sys2Proof.Safety

open Sys2Proof.Machine

/-! ### The frame of the shared operations -/

namespace OnlyChanges

variable {ps qs : List Part} {s t u : State}

theorem refl (ps : List Part) (s : State) : OnlyChanges ps s s := by
  intro p _
  cases p <;> simp [Part.Same]

/-- A frame stays a frame when more parts are named. -/
theorem mono (h : OnlyChanges ps s t) (hsub : ps ⊆ qs) : OnlyChanges qs s t := fun p hp => h p fun hm => hp (hsub hm)

theorem trans (h : OnlyChanges ps s t) (h' : OnlyChanges ps t u) : OnlyChanges ps s u := by
  intro p hp
  have hst := h p hp
  have htu := h' p hp
  cases p <;> simp_all [Part.Same]

theorem setV (s : State) (x : Reg) (b : Byte) : OnlyChanges [.v] s (s.setV x b) := by
  intro p hp
  cases p <;> simp [Part.Same] at hp ⊢

theorem setResultFlag (s : State) (x : Reg) (r f : Byte) : OnlyChanges [.v] s (s.setResultFlag x r f) :=
  (setV s x r).trans (setV _ regF f)

theorem setI (s : State) (w : Word) : OnlyChanges [.i] s (s.setI w) := by
  intro p hp
  cases p <;> simp [Part.Same] at hp ⊢

theorem setDT (s : State) (b : Byte) : OnlyChanges [.dt] s (s.setDT b) := by
  intro p hp
  cases p <;> simp [Part.Same] at hp ⊢

theorem setST (s : State) (b : Byte) : OnlyChanges [.st] s (s.setST b) := by
  intro p hp
  cases p <;> simp [Part.Same] at hp ⊢

theorem setMem (s : State) (m : Memory) : OnlyChanges [.mem] s (s.setMem m) := by
  intro p hp
  cases p <;> simp [Part.Same] at hp ⊢

theorem setFb (s : State) (f : Framebuffer) : OnlyChanges [.fb] s (s.setFb f) := by
  intro p hp
  cases p <;> simp [Part.Same] at hp ⊢

theorem act (s : State) (a : PcAction) : OnlyChanges [.pc] s (s.act a) := by
  intro p hp
  cases p <;> simp [Part.Same] at hp ⊢

theorem draw (s : State) : OnlyChanges [.draws] s s.draw.2 := by
  intro p hp
  cases p <;> simp [Part.Same] at hp ⊢

theorem loadRegs (s : State) (k : Nat) (bs : List Byte) : OnlyChanges [.v] s (s.loadRegs k bs) := by
  rw [State.loadRegs_frame]
  intro p hp
  cases p <;> simp [Part.Same, State.getKey, State.byteAt] at hp ⊢

/-- The frame of a call and of a return. -/
theorem stackUpdate (s : State) (slots : Vector Word 16) (n : Fin 17) (w : Word) :
    OnlyChanges [.pc, .stack] s { s with stack := slots, sp := n, pc := w } := by
  intro p hp
  cases p <;> simp [Part.Same, State.getV, State.getKey, State.byteAt] at hp ⊢

/-- The frame of writes that end with a PC action. -/
theorem of_done {a : PcAction} (h : done a u = .next t) (hu : OnlyChanges ps s u) (hsub : .pc :: ps ⊆ qs) :
    OnlyChanges qs s t := by
  obtain rfl := done_eq_next.mp h
  obtain ⟨hpc, hps⟩ := List.cons_subset.mp hsub
  exact (hu.mono hps).trans ((act u a).mono (by simpa using hpc))

/-- The frame of a skip. -/
theorem of_skipIf {c : Bool} (h : skipIf c s = .next t) : OnlyChanges [.pc] s t := by
  rw [skipIf] at h
  split at h <;> exact of_done h (refl [] s) (List.Subset.refl _)

end OnlyChanges

/-- Every instruction keeps the parts its row of the access matrix does not mark W (10_state.md R27). -/
theorem exec_onlyChanges_mayWrite {i : Instr} {s t : State} (h : exec i s = .next t) :
    OnlyChanges (mayWrite i) s t := by
  cases i with
  | i6XNN | i7XNN | i8XY0 | i8XY1 | i8XY2 | i8XY3 | iFX07 =>
    exact .of_done h (.setV _ _ _) (by simp [mayWrite])
  | i8XY4 | i8XY5 | i8XY6 | i8XY7 | i8XYE =>
    exact .of_done h (.setResultFlag _ _ _ _) (by simp [mayWrite])
  | i1NNN | iBNNN => exact .of_done h (.refl [] s) (by simp [mayWrite])
  | i3XNN | i4XNN | i5XY0 | i9XY0 => exact .of_skipIf h
  | iANNN | iFX1E | iFX29 => exact .of_done h (.setI _ _) (by simp [mayWrite])
  | iFX15 => exact .of_done h (.setDT _ _) (by simp [mayWrite])
  | iFX18 => exact .of_done h (.setST _ _) (by simp [mayWrite])
  | i00E0 => exact .of_done h (.setFb _ _) (by simp [mayWrite])
  | iCXNN x nn =>
    have hu : OnlyChanges [.v, .draws] s (s.draw.2.setV x (s.draw.1 &&& nn)) :=
      ((OnlyChanges.draw s).mono (by simp)).trans ((OnlyChanges.setV _ _ _).mono (by simp))
    exact .of_done h hu (by simp [mayWrite])
  | iEX9E =>
    obtain ⟨_, -, hc⟩ := execEX9E_eq_next h
    exact .of_skipIf hc
  | iEXA1 =>
    obtain ⟨_, -, hc⟩ := execEXA1_eq_next h
    exact .of_skipIf hc
  | iFX0A =>
    obtain ⟨k, -, hb⟩ | ⟨-, rfl⟩ := execFX0A_eq_next h
    · exact .of_done hb (.setV _ _ _) (by simp [mayWrite])
    · exact .refl _ _
  | iDXYN x y n =>
    obtain ⟨-, hd⟩ := guarded_eq_next h
    have hu (f : Framebuffer) (b : Byte) : OnlyChanges [.v, .fb] s ((s.setFb f).setV regF b) :=
      ((OnlyChanges.setFb s f).mono (by simp)).trans ((OnlyChanges.setV _ regF b).mono (by simp))
    exact .of_done hd (hu _ _) (by simp [mayWrite])
  | iFX33 | iFX55 =>
    obtain ⟨-, hd⟩ := guarded_eq_next h
    exact .of_done hd (.setMem _ _) (by simp [mayWrite])
  | iFX65 =>
    obtain ⟨-, hd⟩ := guarded_eq_next h
    exact .of_done hd (.loadRegs _ _ _) (by simp [mayWrite])
  | i00EE =>
    obtain ⟨k, -, rfl⟩ | ⟨-, rfl⟩ := exec00EE_eq_next h
    · exact .stackUpdate _ _ _ _
    · exact .refl _ _
  | i2NNN =>
    obtain ⟨k, -, rfl⟩ | ⟨-, rfl⟩ := exec2NNN_eq_next h
    · exact .stackUpdate _ _ _ _
    · exact .refl _ _

/-- Settles O46: no instruction writes outside its row of the access matrix, instruction by instruction. -/
theorem accessMatrixHolds : Obligations.AccessMatrixHolds := fun _ _ _ => exec_onlyChanges_mayWrite

/-! ### The writers of VF (10_state.md R14) -/

theorem flagByte_eq_zero_or_one (c : Bool) : flagByte c = 0 ∨ flagByte c = 1 := by
  cases c
  · exact .inl rfl
  · exact .inr rfl

/-- A result with its flag leaves the flag in VF. -/
theorem getV_regF_of_done_setResultFlag {x : Reg} {r f : Byte} {s t : State}
    (h : done .cont (s.setResultFlag x r f) = .next t) : t.getV 15 = f := by
  obtain rfl := done_eq_next.mp h
  simp [regF]

/-- A flag writer leaves 0 or 1 in VF. -/
theorem getV_regF_of_writesFlag {i : Instr} {s t : State} (h : exec i s = .next t) (hi : writesFlag i = true) :
    ∃ c, t.getV 15 = flagByte c := by
  cases i <;> simp [writesFlag] at hi
  case i8XY4 | i8XY5 | i8XY6 | i8XY7 | i8XYE => exact ⟨_, getV_regF_of_done_setResultFlag h⟩
  case iDXYN =>
    obtain ⟨-, hd⟩ := guarded_eq_next h
    obtain rfl := done_eq_next.mp hd
    exact ⟨_, State.getV_act _ _ _ |>.trans (State.getV_setV _ regF regF _)⟩

/-- A write to a register other than VF keeps VF. -/
theorem getV_regF_of_done_setV {x : Reg} {b : Byte} {s u t : State} (hx : x ≠ 15)
    (h : done .cont (u.setV x b) = .next t) (hu : u.getV 15 = s.getV 15) : t.getV 15 = s.getV 15 := by
  obtain rfl := done_eq_next.mp h
  simp [hx.symm, hu]

/-- An instruction that writes no flag keeps VF, unless VF is its plain destination: either it writes no register, or it
writes its plain destination X, or (FX65) no register above X. -/
theorem getV_regF_of_not_writesFlag {i : Instr} {s t : State} (h : exec i s = .next t) (hi : writesFlag i = false)
    (hdest : plainDest i ≠ some 15) : t.getV 15 = s.getV 15 := by
  by_cases hv : Part.v ∈ mayWrite i
  case neg => exact exec_onlyChanges_mayWrite h .v hv 15
  cases i <;> simp [writesFlag, mayWrite, plainDest] at hi hv hdest
  case i6XNN | i7XNN | i8XY0 | i8XY1 | i8XY2 | i8XY3 | iFX07 | iCXNN => exact getV_regF_of_done_setV hdest h rfl
  case iFX0A =>
    obtain ⟨k, -, hb⟩ | ⟨-, rfl⟩ := execFX0A_eq_next h
    · exact getV_regF_of_done_setV hdest hb rfl
    · rfl
  case iFX65 x =>
    obtain ⟨-, hd⟩ := guarded_eq_next h
    obtain rfl := done_eq_next.mp hd
    have hx : ¬ (15 : Reg) ≤ x := fun hle => hdest (le_antisymm (Fin.le_last x) hle)
    rw [State.getV_act, getV_loadRegs_readBytes, if_neg hx]

/-- Settles O26: the six flag writers put a flag byte in VF, and the others keep VF. -/
theorem flagWritersAreSix : Obligations.FlagWritersAreSix := by
  intro i s t h
  refine ⟨fun hi => ?_, getV_regF_of_not_writesFlag h⟩
  obtain ⟨c, hc⟩ := getV_regF_of_writesFlag h hi
  simpa [hc] using flagByte_eq_zero_or_one c

/-! ### The invariant (10_state.md R16, R17) -/

section
variable {s u t : State}

/-- A state with the memory and the stack of an invariant state, and a pc in bounds, has the invariant. -/
theorem Inv.of_same (hs : Inv s) (hmem : u.mem = s.mem) (hstack : u.stack = s.stack) (hpc : u.pc.toNat ≤ 0x10FE) :
    Inv u := by
  obtain ⟨hwf, -, hslots⟩ := hs
  exact ⟨hmem ▸ hwf, hpc, by simpa only [hstack] using hslots⟩

/-- After a fetch in range, pc + 2 does not wrap. -/
theorem toNat_pc_add_two (hr : s.pc.toNat + 2 ≤ Config.memSize) : (s.pc + 2).toNat = s.pc.toNat + 2 := by
  rw [Config.memSize] at hr
  bv_omega

/-- Writes outside memory, pc and stack, followed by pc + 2, keep the invariant. -/
theorem Inv.of_cont (hs : Inv s) (hr : s.pc.toNat + 2 ≤ Config.memSize) (h : done .cont u = .next t)
    (hmem : u.mem = s.mem) (hstack : u.stack = s.stack) (hpc : u.pc = s.pc) : Inv t := by
  obtain rfl := done_eq_next.mp h
  refine hs.of_same (by simpa using hmem) (by simpa using hstack) ?_
  rw [State.act_cont_pc, hpc, toNat_pc_add_two hr]
  rw [Config.memSize] at hr
  omega

/-- A skip keeps the invariant. -/
theorem Inv.of_skipIf {c : Bool} (hs : Inv s) (hr : s.pc.toNat + 2 ≤ Config.memSize) (h : skipIf c s = .next t) :
    Inv t := by
  rw [skipIf_eq, Host.Outcome.next.injEq] at h
  subst h
  rw [Config.memSize] at hr
  refine hs.of_same rfl rfl ?_
  rw [State.setPc_pc]
  cases c
  · exact (toNat_pc_add_two hr).trans_le (by omega)
  · have hskip : (s.pc + 4).toNat = s.pc.toNat + 4 := by bv_omega
    exact hskip.trans_le (by omega)

/-- A jump to at most 0x10FE keeps the invariant. -/
theorem Inv.of_jump {w : Word} (hs : Inv s) (hw : w.toNat ≤ 0x10FE) (h : done (.jump w) s = .next t) : Inv t := by
  obtain rfl := done_eq_next.mp h
  exact hs.of_same rfl rfl hw

/-- A block write in range, followed by pc + 2, keeps the invariant. -/
theorem Inv.of_writeBytes {a : Nat} {bs : List Byte} (hs : Inv s) (hr : s.pc.toNat + 2 ≤ Config.memSize)
    (ha : a + bs.length ≤ Config.memSize) (h : done .cont (s.setMem (s.mem.writeBytes a bs)) = .next t) : Inv t := by
  obtain ⟨hwf, hpc, hslots⟩ := hs
  exact Inv.of_cont (s := s.setMem (s.mem.writeBytes a bs)) ⟨Memory.wf_writeBytes ha hwf, hpc, hslots⟩ hr h rfl rfl rfl

theorem toNat_zext16_le (nnn : Addr12) : (zext16 nnn).toNat ≤ 0xFFF := by
  have := nnn.isLt
  simp [zext16]
  omega

/-- The target of BNNN is at most 0xFFF + 0xFF (41_flow.md R72). -/
theorem toNat_indexedTarget_le (nnn : Addr12) (b : Byte) : (zext16 nnn + zext16 b).toNat ≤ 0x10FE := by
  have := nnn.isLt
  have := b.isLt
  simp [zext16, BitVec.toNat_add]
  omega

end

/-- An instruction whose fetch was in range keeps the invariant. -/
theorem exec_keeps_inv {i : Instr} {s t : State} (hs : Inv s) (hr : s.pc.toNat + 2 ≤ Config.memSize)
    (h : exec i s = .next t) : Inv t := by
  cases i with
  | i00E0 | i6XNN | i7XNN | i8XY0 | i8XY1 | i8XY2 | i8XY3 | i8XY4 | i8XY5 | i8XY6 | i8XY7 | i8XYE | iANNN | iCXNN | iFX07
  | iFX15 | iFX18 | iFX1E | iFX29 => exact hs.of_cont hr h rfl rfl rfl
  | i3XNN | i4XNN | i5XY0 | i9XY0 => exact hs.of_skipIf hr h
  | iEX9E =>
    obtain ⟨_, -, hc⟩ := execEX9E_eq_next h
    exact hs.of_skipIf hr hc
  | iEXA1 =>
    obtain ⟨_, -, hc⟩ := execEXA1_eq_next h
    exact hs.of_skipIf hr hc
  | iFX0A =>
    obtain ⟨k, -, hb⟩ | ⟨-, rfl⟩ := execFX0A_eq_next h
    · exact hs.of_cont hr hb rfl rfl rfl
    · exact hs
  | iDXYN =>
    obtain ⟨-, hd⟩ := guarded_eq_next h
    exact hs.of_cont hr hd rfl rfl rfl
  | iFX65 =>
    obtain ⟨-, hd⟩ := guarded_eq_next h
    rw [State.loadRegs_frame] at hd
    exact hs.of_cont hr hd rfl rfl rfl
  | iFX33 =>
    obtain ⟨hlen, hd⟩ := guarded_eq_next h
    exact hs.of_writeBytes hr (hlen.resolve_left (by decide)) hd
  | iFX55 x =>
    obtain ⟨hlen, hd⟩ := guarded_eq_next h
    exact hs.of_writeBytes hr (by simpa using hlen) hd
  | i1NNN nnn => exact hs.of_jump ((toNat_zext16_le nnn).trans (by decide)) h
  | iBNNN nnn => exact hs.of_jump (toNat_indexedTarget_le nnn _) h
  | i00EE =>
    obtain ⟨k, -, rfl⟩ | ⟨-, rfl⟩ := exec00EE_eq_next h
    · obtain ⟨hwf, -, hslots⟩ := hs
      exact ⟨hwf, (hslots k).trans (by decide), hslots⟩
    · exact hs
  | i2NNN nnn =>
    obtain ⟨k, -, rfl⟩ | ⟨-, rfl⟩ := exec2NNN_eq_next h
    · obtain ⟨hwf, -, hslots⟩ := hs
      refine ⟨hwf, (toNat_zext16_le nnn).trans (by decide), fun j => ?_⟩
      rw [Vector.getElem_set]
      split
      · exact (toNat_pc_add_two hr).trans_le hr
      · exact hslots j
    · exact hs

/-- Settles O44: the fetch bounds pc, and the instruction, or the unknown opcode, then keeps the invariant. -/
theorem stepKeepsInvariant : Obligations.StepKeepsInvariant := by
  intro s t hs h
  obtain ⟨op, hop, ⟨i, -, hi⟩ | ⟨-, ht⟩⟩ := step_eq_next h
  · exact exec_keeps_inv hs (fetch_eq_ok hop).1 hi
  · exact hs.of_cont (fetch_eq_ok hop).1 (done_eq_next.mpr ht) rfl rfl rfl

end Sys2Proof.Safety

namespace Sys2Proof.Machine

/-! ### No instruction reads ST (10_state.md R18) -/

/-- A result with another value in ST, where it is a next state. -/
def withST (b : Byte) : Result → Result
  | .next t => .next (t.setST b)
  | .fault f => .fault f
  | .refused r => .refused r

section
variable (b : Byte) (s : State)

theorem push_setST (w : Word) : (s.setST b).push w = (s.push w).map (·.setST b) := by
  unfold State.push
  by_cases hsp : s.sp.val < 16
  · rw [dif_pos hsp, dif_pos (show (s.setST b).sp.val < 16 from hsp)]
    rfl
  · rw [dif_neg hsp, dif_neg (show ¬ (s.setST b).sp.val < 16 from hsp)]
    rfl

theorem pop_setST : (s.setST b).pop = s.pop.map fun p => (p.1, p.2.setST b) := by
  unfold State.pop
  by_cases hsp : s.sp.val = 0
  · rw [dif_pos hsp, dif_pos (show (s.setST b).sp.val = 0 from hsp)]
    rfl
  · rw [dif_neg hsp, dif_neg (show ¬ (s.setST b).sp.val = 0 from hsp)]
    rfl

theorem withST_done (a : PcAction) : withST b (done a s) = done a (s.setST b) := by
  cases a <;> rfl

theorem withST_skipIf (c : Bool) : withST b (skipIf c s) = skipIf c (s.setST b) := by
  cases c <;> rfl

theorem withST_guarded (k : AccessKind) (base len : Nat) (r : Result) :
    withST b (guarded k base len r) = guarded k base len (withST b r) := by
  unfold guarded
  split <;> rfl

theorem withST_exec00EE : withST b (exec00EE s) = exec00EE (s.setST b) := by
  unfold exec00EE
  rw [pop_setST]
  cases s.pop <;> rfl

theorem withST_exec2NNN (nnn : Addr12) : withST b (exec2NNN nnn s) = exec2NNN nnn (s.setST b) := by
  unfold exec2NNN
  rw [State.setST_pc, push_setST]
  cases s.push (s.pc + 2) <;> rfl

theorem withST_execEX9E (x : Reg) : withST b (execEX9E x s) = execEX9E x (s.setST b) := by
  have hkey : (s.setST b).keyOf x = s.keyOf x := rfl
  unfold execEX9E
  rw [hkey]
  cases s.keyOf x with
  | ok pressed => exact withST_skipIf b s pressed
  | error f => rfl

theorem withST_execEXA1 (x : Reg) : withST b (execEXA1 x s) = execEXA1 x (s.setST b) := by
  have hkey : (s.setST b).keyOf x = s.keyOf x := rfl
  unfold execEXA1
  rw [hkey]
  cases s.keyOf x with
  | ok pressed => exact withST_skipIf b s (!pressed)
  | error f => rfl

theorem withST_execFX0A (x : Reg) : withST b (execFX0A x s) = execFX0A x (s.setST b) := by
  have hkey : (s.setST b).lowestKey = s.lowestKey := rfl
  unfold execFX0A
  rw [hkey]
  cases s.lowestKey <;> rfl

theorem withST_execFX65 (x : Reg) : withST b (execFX65 x s) = execFX65 x (s.setST b) := by
  unfold execFX65
  rw [withST_guarded, withST_done, ← State.loadRegs_setST]
  rfl

/-- FX18 overwrites ST, so the value it finds there is lost (45_keypad_timers.md R101). -/
theorem execFX18_setST (x : Reg) : execFX18 x (s.setST b) = execFX18 x s := rfl

/-- Every instruction but FX18 does the same with another value in ST, and keeps that value. -/
theorem withST_exec (i : Instr) (hi : ∀ x, i ≠ .iFX18 x) : withST b (exec i s) = exec i (s.setST b) := by
  cases i with
  | iFX18 x => exact absurd rfl (hi x)
  | i00EE => exact withST_exec00EE b s
  | i2NNN nnn => exact withST_exec2NNN b s nnn
  | iEX9E x => exact withST_execEX9E b s x
  | iEXA1 x => exact withST_execEXA1 b s x
  | iFX0A x => exact withST_execFX0A b s x
  | iFX65 x => exact withST_execFX65 b s x
  | i3XNN | i4XNN | i5XY0 | i9XY0 => exact withST_skipIf b s _
  | iDXYN | iFX33 | iFX55 => exact (withST_guarded b _ _ _ _).trans rfl
  | i00E0 | i1NNN | i6XNN | i7XNN | i8XY0 | i8XY1 | i8XY2 | i8XY3 | i8XY4 | i8XY5 | i8XY6 | i8XY7 | i8XYE | iANNN | iBNNN
  | iCXNN | iFX07 | iFX15 | iFX1E | iFX29 => exact (withST_done b _ _).trans rfl

end

/-- Settles O48: the two runs give the same result up to ST, and FX18 the very same. -/
theorem noInstructionReadsST : Obligations.NoInstructionReadsST := by
  intro i s b
  by_cases hi : ∃ x, i = .iFX18 x
  · obtain ⟨x, rfl⟩ := hi
    have hsame : exec (.iFX18 x) (s.setST b) = exec (.iFX18 x) s := execFX18_setST b s x
    exact ⟨fun f h => hsame.trans h, fun t h => ⟨fun hne => absurd rfl (hne x), fun _ _ => hsame.trans h⟩⟩
  · have hne : ∀ x, i ≠ .iFX18 x := not_exists.mp hi
    have hsame := (withST_exec b s i hne).symm
    exact ⟨fun f h => hsame.trans (congrArg (withST b) h),
      fun t h => ⟨fun _ => hsame.trans (congrArg (withST b) h), fun x hx => absurd hx (hne x)⟩⟩

/-! ### The state after reset (10_state.md R25, R26) -/

/-- A byte of memory after reset: the font table at 0x050, and 0x00 around it. -/
theorem byteAt_resetWith (font : Vector Byte 80) (a : Nat) :
    (State.resetWith font).byteAt a = if h : 0x050 ≤ a ∧ a - 0x050 < 80 then font[a - 0x050] else 0x00 := by
  have hread := read_cellsFrom Config.fontBase a font.toList (by simp [Config.fontBase, Config.memSize])
  simpa [State.byteAt, State.resetWith, Config.fontBase, Config.memInit] using hread

/-- Settles O42: the fields as `State.resetWith` writes them, and memory as the font's cells read. -/
theorem resetStateValues : Obligations.ResetStateValues := by
  intro font
  refine ⟨fun x => ?regs, rfl, rfl, rfl, fun k => ?slots, rfl, rfl, fun a b => ?pixels, fun k => ?keys, fun j => ?glyphs,
    fun a ha => ?zeros, rfl⟩
  case regs => exact Vector.getElem_replicate _
  case slots => exact Vector.getElem_replicate _
  case pixels => exact pixel_clearFb a b
  case keys => exact Vector.getElem_replicate _
  case glyphs =>
    rw [byteAt_resetWith, dif_pos ⟨by omega, by omega⟩]
    simp
  case zeros => rw [byteAt_resetWith, dif_neg (by omega)]

/-- Settles O43: the font's cells are canonical, whatever the font, and pc and the slots are constants. -/
theorem invariantAtReset : Obligations.InvariantAtReset := by
  refine ⟨wf_resetWith Config.fontTable, by decide, fun k => ?_⟩
  have hslot : State.reset.stack[k.val] = 0 := Vector.getElem_replicate _
  simp [hslot]

end Sys2Proof.Machine

/-! SUPPORT. Proofs of the statements about memory (20_memory.md): the byte order and the bounds of a fetch, and that a
stored instruction is what the next fetch reads. -/

namespace Sys2Proof.Machine

/-! ### Fetch (20_memory.md R30, R32; 40_machine_cycle.md R57) -/

/-- Big-endian: the byte at the lower address has the weight 256 (20_memory.md R30). -/
theorem toNat_wordOfBytes (hi lo : Byte) : (wordOfBytes hi lo).toNat = 256 * hi.toNat + lo.toNat := by
  have happend : (hi ++ lo).toNat = hi.toNat <<< 8 + lo.toNat := by
    rw [BitVec.toNat_append, Nat.shiftLeft_add_eq_or_of_lt lo.isLt]
  rw [wordOfBytes, happend, Nat.shiftLeft_eq]
  omega

/-- A fetch in range, with its word as a number. -/
theorem exists_fetch_of_inRange {s : State} (h : s.pc.toNat + 2 ≤ Config.memSize) :
    ∃ op : Word, fetch s = .ok op ∧
      op.toNat = 256 * (s.byteAt s.pc.toNat).toNat + (s.byteAt (s.pc.toNat + 1)).toNat :=
  ⟨_, fetch_of_inRange h, toNat_wordOfBytes _ _⟩

/-- A step whose fetch leaves memory is the fetch fault at the lowest address outside (20_memory.md R33). -/
theorem step_of_fetch_outOfRange {s : State} (h : Config.memSize < s.pc.toNat + 2) :
    step s = .fault (.addressFault .fetch (max s.pc.toNat Config.memSize)) := by
  have hfault := rangeFault_eq_some (k := .fetch).mpr ⟨by decide, h, rfl⟩
  simp only [step, fetch, hfault]

/-- Settles O7: 0xFFE is the last pc whose two bytes both lie in memory. -/
theorem fetchIsBigEndianOrFaults : Obligations.FetchIsBigEndianOrFaults := by
  refine ⟨fun s hpc => exists_fetch_of_inRange ?_, fun s hpc => ?_⟩
  · rw [Config.memSize]
    omega
  · have hlowest : max s.pc.toNat Config.memSize = if 0xFFF < s.pc.toNat then s.pc.toNat else 0x1000 := by
      rw [Config.memSize]
      split <;> omega
    rw [step_of_fetch_outOfRange (by rw [Config.memSize]; omega), hlowest]

/-! ### The store of a block of registers (43_index_memory.md R91) -/

/-- FX55 in range: the block V0 to VX written at I, and pc + 2. -/
theorem exec_iFX55_of_inRange {x : Reg} {s : State} (h : s.i.toNat + x.val ≤ 0xFFF) :
    exec (.iFX55 x) s = .next ((s.setMem (s.mem.writeBytes (s.effAddr 0) (s.regsUpTo x))).act .cont) := by
  have hrange : s.effAddr 0 + (x.val + 1) ≤ Config.memSize := by
    rw [State.effAddr, Config.memSize]
    omega
  exact guarded_of_inRange (.inr hrange)

/-- Byte k of a stored block is register k. -/
theorem read_writeBytes_regsUpTo (s : State) (m : Memory) (a : Nat) {x k : Reg} (h : k ≤ x) :
    (m.writeBytes a (s.regsUpTo x)).read (a + k.val) = s.getV k := by
  have hk : k.val < (s.regsUpTo x).length := by
    rw [length_regsUpTo]
    exact Nat.lt_succ_of_le h
  rw [Memory.read_writeBytes, dif_pos ⟨Nat.le_add_right _ _, by rwa [Nat.add_sub_cancel_left]⟩]
  simp only [Nat.add_sub_cancel_left, getElem_regsUpTo]

/-- FX55 in range, as seen afterwards: pc + 2, and each register of the block in its place from I on. -/
theorem exists_exec_iFX55_of_inRange {x : Reg} {s : State} (h : s.i.toNat + x.val ≤ 0xFFF) :
    ∃ t, exec (.iFX55 x) s = .next t ∧ t.pc = s.pc + 2 ∧ ∀ k : Reg, k ≤ x → t.byteAt (s.i.toNat + k.val) = s.getV k :=
  ⟨_, exec_iFX55_of_inRange h, rfl, fun _ hk => read_writeBytes_regsUpTo s s.mem (s.effAddr 0) hk⟩

/-! ### Self-modifying code (20_memory.md R42) -/

/-- Settles O34: pc + 2 is I, so the two bytes fetched next are bytes 0 and 1 of the stored block. -/
theorem storedCodeIsFetchedNext : Obligations.StoredCodeIsFetchedNext := by
  intro x s hx hi hrange
  obtain ⟨t, hexec, hpc, hbytes⟩ := exists_exec_iFX55_of_inRange hrange
  have hpc : t.pc = s.i := hpc.trans hi.symm
  obtain ⟨op, hfetch, hop⟩ := exists_fetch_of_inRange (s := t) (by rw [hpc, Config.memSize]; omega)
  have hbyte0 : t.byteAt s.i.toNat = s.getV 0 := hbytes 0 (Fin.zero_le x)
  have hbyte1 : t.byteAt (s.i.toNat + 1) = s.getV 1 := hbytes 1 hx
  rw [hpc, hbyte0, hbyte1] at hop
  exact ⟨t, op, hexec, hfetch, hop⟩

end Sys2Proof.Machine

/-! SUPPORT. Proofs of the statements about the encoding (30_encoding.md): decode and encode are inverse, the decoder
agrees with the opcode map, and which words are unknown opcodes. -/

namespace Sys2Proof

/-! ### A word rebuilt from the fields that its row leaves free (30_encoding.md R45, R46) -/

section

variable {w : Word} {f : BitVec 4} {n : Nibble} {nn : Byte}

theorem formatA_of_fieldF (hF : fieldF w = f) : formatA f (fieldNNN w) = w := hF ▸ formatA_fields w

theorem formatXI_of_fieldF (hF : fieldF w = f) : formatXI f (fieldX w) (fieldNN w) = w := hF ▸ formatXI_fields w

theorem formatXI_of_fieldNN (hF : fieldF w = f) (hNN : fieldNN w = nn) : formatXI f (fieldX w) nn = w :=
  hNN ▸ formatXI_of_fieldF hF

theorem formatXYN_of_fieldF (hF : fieldF w = f) : formatXYN f (fieldX w) (fieldY w) (fieldN w) = w :=
  hF ▸ formatXYN_fields w

theorem formatXYN_of_fieldN (hF : fieldF w = f) (hN : fieldN w = n) : formatXYN f (fieldX w) (fieldY w) n = w :=
  hN ▸ formatXYN_of_fieldF hF

end

/-! ### Decode of encode (R46, R50) -/

/-- Settles O1: the fields the decoder tests and reads are the ones the format put in the word (Laws/Decode). The
instructions are grouped by the fields that tell them apart: the family nibble, then the last nibble or the low byte. -/
theorem decodeOfEncode : Obligations.DecodeOfEncode := by
  intro i
  cases i with
  | i00E0 | i00EE => rfl
  | i1NNN | i2NNN | i3XNN | i4XNN | i5XY0 | i6XNN | i7XNN | i9XY0 | iANNN | iBNNN | iCXNN | iDXYN =>
    simp [encode, decodeWord]
  | i8XY0 | i8XY1 | i8XY2 | i8XY3 | i8XY4 | i8XY5 | i8XY6 | i8XY7 | i8XYE => simp [encode, decodeWord, decodeFamily8]
  | iEX9E | iEXA1 => simp [encode, decodeWord, decodeFamilyE]
  | iFX07 | iFX0A | iFX15 | iFX18 | iFX1E | iFX29 | iFX33 | iFX55 | iFX65 => simp [encode, decodeWord, decodeFamilyF]

/-- Settles O5: each word is the encoder's word for its instruction. -/
theorem sampleWordsDecode : Obligations.SampleWordsDecode :=
  ⟨decodeOfEncode .i00EE, decodeOfEncode (.i3XNN 0xA 0x05), decodeOfEncode (.i7XNN 0xA 0xFF),
    decodeOfEncode (.i8XY7 0x1 0x2), decodeOfEncode (.iANNN 0x2F0), decodeOfEncode (.iDXYN 0x0 0x1 0x5),
    decodeOfEncode (.iEX9E 0x5), decodeOfEncode (.iFX55 0x2)⟩

/-! ### Encode of decode (R46, R50, R53) -/

section

variable {w : Word} {i : Instr}

theorem encode_of_decodeFamily0 (h : decodeFamily0 w = some i) : encode i = w := by
  unfold decodeFamily0 at h
  split_ifs at h with hE0 hEE
  · cases h
    exact hE0.symm
  · cases h
    exact hEE.symm

theorem encode_of_decodeFamily8 (hF : fieldF w = 0x8) (h : decodeFamily8 w = some i) : encode i = w := by
  unfold decodeFamily8 at h
  split at h <;> cases h <;> exact formatXYN_of_fieldN hF (BitVec.eq_of_toNat_eq ‹_›)

theorem encode_of_decodeFamilyE (hF : fieldF w = 0xE) (h : decodeFamilyE w = some i) : encode i = w := by
  unfold decodeFamilyE at h
  split at h <;> cases h <;> exact formatXI_of_fieldNN hF (BitVec.eq_of_toNat_eq ‹_›)

theorem encode_of_decodeFamilyF (hF : fieldF w = 0xF) (h : decodeFamilyF w = some i) : encode i = w := by
  unfold decodeFamilyF at h
  split at h <;> cases h <;> exact formatXI_of_fieldNN hF (BitVec.eq_of_toNat_eq ‹_›)

end

/-- Settles O2: the fields the decoder tested are the row's fixed ones, the others are the instruction's operands, and
a word is its fields side by side. Case `h_1` is family 0, `h_2` family 1, and so on. -/
theorem encodeOfDecode : Obligations.EncodeOfDecode := by
  intro w i h
  unfold decodeWord at h
  split at h
  case h_1 => exact encode_of_decodeFamily0 h
  case h_9 hF => exact encode_of_decodeFamily8 (BitVec.eq_of_toNat_eq hF) h
  case h_15 hF => exact encode_of_decodeFamilyE (BitVec.eq_of_toNat_eq hF) h
  case h_16 hF => exact encode_of_decodeFamilyF (BitVec.eq_of_toNat_eq hF) h
  case h_2 hF | h_3 hF | h_11 hF | h_12 hF =>
    cases h
    exact formatA_of_fieldF (BitVec.eq_of_toNat_eq hF)
  case h_4 hF | h_5 hF | h_7 hF | h_8 hF | h_13 hF =>
    cases h
    exact formatXI_of_fieldF (BitVec.eq_of_toNat_eq hF)
  case h_6 hF | h_10 hF =>
    split_ifs at h with hN
    cases h
    exact formatXYN_of_fieldN (BitVec.eq_of_toNat_eq hF) hN
  case h_14 hF =>
    cases h
    exact formatXYN_of_fieldF (BitVec.eq_of_toNat_eq hF)
  case h_17 => cases h

/-- A word decodes to an instruction exactly when it is that instruction's word. -/
theorem decodeWord_eq_some_iff {w : Word} {i : Instr} : decodeWord w = some i ↔ encode i = w :=
  ⟨encodeOfDecode w i, fun h => h ▸ decodeOfEncode i⟩

/-! ### The opcode map (R49, R51) -/

section

variable {w m p : Word}

/-- A mask that holds all of field F fixes field F to the pattern's. -/
theorem fieldF_eq_of_and (h : w &&& m = p) (hm : fieldF m = BitVec.allOnes 4) : fieldF w = fieldF p := by
  have hand : fieldF (w &&& m) = fieldF w &&& fieldF m := BitVec.extractLsb'_and
  rw [← h, hand, hm, BitVec.and_allOnes]

theorem fieldN_eq_of_and (h : w &&& m = p) (hm : fieldN m = BitVec.allOnes 4) : fieldN w = fieldN p := by
  have hand : fieldN (w &&& m) = fieldN w &&& fieldN m := BitVec.extractLsb'_and
  rw [← h, hand, hm, BitVec.and_allOnes]

theorem fieldNN_eq_of_and (h : w &&& m = p) (hm : fieldNN m = BitVec.allOnes 8) : fieldNN w = fieldNN p := by
  have hand : fieldNN (w &&& m) = fieldNN w &&& fieldNN m := BitVec.extractLsb'_and
  rw [← h, hand, hm, BitVec.and_allOnes]

end

open Laws.EncodesItsRow in
/-- The laws of Laws/PerInstr, one for each instruction, as one. -/
theorem encode_and_mask (i : Instr) : encode i &&& (rowOf i).mask = (rowOf i).pattern :=
  have hrow : Statement i :=
    Instr.casesOn i i00E0 i00EE i1NNN i2NNN i3XNN i4XNN i5XY0 i6XNN i7XNN i8XY0 i8XY1 i8XY2 i8XY3 i8XY4 i8XY5 i8XY6
      i8XY7 i8XYE i9XY0 iANNN iBNNN iCXNN iDXYN iEX9E iEXA1 iFX07 iFX0A iFX15 iFX18 iFX1E iFX29 iFX33 iFX55 iFX65
  beq_iff_eq.mp hrow

theorem rowOf_mem_opcodeTable (i : Instr) : rowOf i ∈ opcodeTable := by
  cases i <;> simp [opcodeTable, rowOf]

/-- A word that matches an instruction's row decodes to an instruction of that row: the row's mask fixes the very
fields that the decoder tests. -/
theorem exists_decodeWord_of_and_mask {w : Word} (j : Instr) (h : w &&& (rowOf j).mask = (rowOf j).pattern) :
    ∃ i, decodeWord w = some i ∧ rowOf i = rowOf j := by
  cases j with
  | i00E0 | i00EE =>
    obtain rfl := BitVec.and_allOnes.symm.trans h
    exact ⟨_, rfl, rfl⟩
  | i1NNN | i2NNN | i3XNN | i4XNN | i6XNN | i7XNN | iANNN | iBNNN | iCXNN | iDXYN =>
    simp only [rowOf] at h
    have hF := fieldF_eq_of_and h rfl
    simp [decodeWord, hF, fieldF_toNat, rowOf]
  | i5XY0 | i9XY0 =>
    simp only [rowOf] at h
    have hF := fieldF_eq_of_and h rfl
    have hN : fieldN w = 0 := fieldN_eq_of_and h rfl
    simp [decodeWord, hF, fieldF_toNat, hN, rowOf]
  | i8XY0 | i8XY1 | i8XY2 | i8XY3 | i8XY4 | i8XY5 | i8XY6 | i8XY7 | i8XYE =>
    simp only [rowOf] at h
    have hF := fieldF_eq_of_and h rfl
    have hN := fieldN_eq_of_and h rfl
    simp [decodeWord, hF, fieldF_toNat, decodeFamily8, hN, fieldN_toNat, rowOf]
  | iEX9E | iEXA1 | iFX07 | iFX0A | iFX15 | iFX18 | iFX1E | iFX29 | iFX33 | iFX55 | iFX65 =>
    simp only [rowOf] at h
    have hF := fieldF_eq_of_and h rfl
    have hNN := fieldNN_eq_of_and h rfl
    simp [decodeWord, hF, fieldF_toNat, decodeFamilyE, decodeFamilyF, hNN, fieldNN_toNat, rowOf]

/-- Settles O3: a decoded word is its instruction's word, which matches its row; and every row of the map is the row
of some instruction. -/
theorem decodeAgreesWithOpcodeMap : Obligations.DecodeAgreesWithOpcodeMap := by
  refine ⟨fun w i h => ?_, fun w r hr h => ?_⟩
  · obtain rfl := decodeWord_eq_some_iff.mp h
    exact ⟨rowOf_mem_opcodeTable i, encode_and_mask i⟩
  · obtain ⟨j, -, rfl⟩ := List.mem_map.mp hr
    exact exists_decodeWord_of_and_mask j h

/-! ### The unknown opcodes (R49, R52) -/

section

variable {w : Word}

theorem decodeFamily0_eq_none : decodeFamily0 w = none ↔ w.toNat ≠ 0x00E0 ∧ w.toNat ≠ 0x00EE := by
  simp only [decodeFamily0, ← BitVec.toNat_inj]
  split_ifs <;> simp_all

theorem decodeFamily8_eq_none :
    decodeFamily8 w = none ↔ (fieldN w).toNat ∉ [0x0, 0x1, 0x2, 0x3, 0x4, 0x5, 0x6, 0x7, 0xE] := by
  unfold decodeFamily8
  split <;> simp_all

theorem decodeFamilyE_eq_none : decodeFamilyE w = none ↔ (fieldNN w).toNat ∉ [0x9E, 0xA1] := by
  unfold decodeFamilyE
  split <;> simp_all

theorem decodeFamilyF_eq_none :
    decodeFamilyF w = none ↔ (fieldNN w).toNat ∉ [0x07, 0x0A, 0x15, 0x18, 0x1E, 0x29, 0x33, 0x55, 0x65] := by
  unfold decodeFamilyF
  split <;> simp_all

end

/-- Settles O4: family by family, with the quotient and the remainders of the statement read as the fields F, N and NN.
Case `h_1` is family 0, `h_2` family 1, and so on; `h_17` is no family, as field F has four bits. -/
theorem unknownOpcodeExtent : Obligations.UnknownOpcodeExtent := by
  intro w
  simp only [← fieldF_toNat, ← fieldN_toNat, ← fieldNN_toNat]
  unfold decodeWord
  split
  case h_1 hF => simp [hF, decodeFamily0_eq_none]
  case h_9 hF => simp [hF, decodeFamily8_eq_none]
  case h_15 hF => simp [hF, decodeFamilyE_eq_none]
  case h_16 hF => simp [hF, decodeFamilyF_eq_none]
  case h_6 hF | h_10 hF => simp [hF, ← BitVec.toNat_inj]
  case h_2 hF | h_3 hF | h_4 hF | h_5 hF | h_7 hF | h_8 hF | h_11 hF | h_12 hF | h_13 hF | h_14 hF => simp [hF]
  case h_17 =>
    have hlt := (fieldF w).isLt
    simp only [imp_false] at *
    exfalso
    omega

end Sys2Proof

/-! SUPPORT. Proofs of the statements about the machine cycle (40_machine_cycle.md): what a step runs, what it reports,
and the parts that no step writes. -/

namespace Sys2Proof.Machine

/-! ### No instruction is refused (60_exceptions.md R112) -/

section
variable {q : Refusal} {s : State}

theorem done_ne_refused {a : PcAction} : done a s ≠ .refused q := nofun

theorem skipIf_ne_refused {c : Bool} : skipIf c s ≠ .refused q := by
  cases c <;> exact done_ne_refused

theorem guarded_ne_refused {k : AccessKind} {base len : Nat} {r : Result} (h : r ≠ .refused q) :
    guarded k base len r ≠ .refused q := by
  unfold guarded
  split
  · nofun
  · exact h

theorem execEX9E_ne_refused {x : Reg} : execEX9E x s ≠ .refused q := by
  unfold execEX9E
  split
  · exact skipIf_ne_refused
  · nofun

theorem execEXA1_ne_refused {x : Reg} : execEXA1 x s ≠ .refused q := by
  unfold execEXA1
  split
  · exact skipIf_ne_refused
  · nofun

theorem execFX0A_ne_refused {x : Reg} : execFX0A x s ≠ .refused q := by
  unfold execFX0A
  split <;> exact done_ne_refused

theorem exec00EE_ne_refused : exec00EE s ≠ .refused q := by
  unfold exec00EE
  split <;> exact done_ne_refused

theorem exec2NNN_ne_refused {nnn : Addr12} : exec2NNN nnn s ≠ .refused q := by
  unfold exec2NNN
  split <;> exact done_ne_refused

end

/-- Every instruction has its meaning, by the shared operation it ends in. -/
theorem exec_ne_refused (i : Instr) (s : State) (q : Refusal) : exec i s ≠ .refused q := by
  cases i with
  | i00EE => exact exec00EE_ne_refused
  | i2NNN => exact exec2NNN_ne_refused
  | iEX9E => exact execEX9E_ne_refused
  | iEXA1 => exact execEXA1_ne_refused
  | iFX0A => exact execFX0A_ne_refused
  | i3XNN | i4XNN | i5XY0 | i9XY0 => exact skipIf_ne_refused
  | iDXYN | iFX33 | iFX55 | iFX65 => exact guarded_ne_refused done_ne_refused
  | i00E0 | i1NNN | i6XNN | i7XNN | i8XY0 | i8XY1 | i8XY2 | i8XY3 | i8XY4 | i8XY5 | i8XY6 | i8XY7 | i8XYE | iANNN | iBNNN
  | iCXNN | iFX07 | iFX15 | iFX18 | iFX1E | iFX29 => exact done_ne_refused

/-- An instruction that does not fault has a next state. -/
theorem exists_exec_eq_next {i : Instr} {s : State} (h : ∀ f, exec i s ≠ .fault f) : ∃ t, exec i s = .next t := by
  cases he : exec i s with
  | next t => exact ⟨t, rfl⟩
  | fault f => exact absurd he (h f)
  | refused q => exact absurd he (exec_ne_refused i s q)

/-! ### The stack faults (41_flow.md R65, R67) -/

/-- A return with an empty stack changes nothing (R65). -/
theorem exec_i00EE_of_empty {s : State} (h : s.sp.val = 0) : exec .i00EE s = .next s := by
  simp only [exec, exec00EE, State.pop_eq_none.mpr h]
  exact done_eq_next.mpr rfl

/-- A call with a full stack changes nothing (R67). -/
theorem exec_i2NNN_of_full {nnn : Addr12} {s : State} (h : s.sp.val = 16) : exec (.i2NNN nnn) s = .next s := by
  simp only [exec, exec2NNN, State.push_eq_none.mpr h]
  exact done_eq_next.mpr rfl

/-- What an instruction with a next state reports: Normal, or the stack fault of 2NNN or of 00EE (R62). -/
theorem instrReport_cases (i : Instr) (s : State) :
    instrReport i s = .normal ∨
      (instrReport i s = .stackOverflow ∧ s.sp.val = 16 ∧ ∃ nnn, i = .i2NNN nnn) ∨
      (instrReport i s = .stackUnderflow ∧ s.sp.val = 0 ∧ i = .i00EE) := by
  cases i with
  | i2NNN nnn =>
    by_cases hfull : s.sp.val = 16
    · exact .inr (.inl ⟨by simp [instrReport, State.push_eq_none.mpr hfull], hfull, nnn, rfl⟩)
    · exact .inl (by simp [instrReport, State.push_eq_none, hfull])
  | i00EE =>
    by_cases hempty : s.sp.val = 0
    · exact .inr (.inr ⟨by simp [instrReport, State.pop_eq_none.mpr hempty], hempty, rfl⟩)
    · exact .inl (by simp [instrReport, State.pop_eq_none, hempty])
  | _ => exact .inl rfl

theorem faultReport_injective : Function.Injective faultReport := by
  intro f g h
  cases f <;> cases g <;> simp_all [faultReport]

/-- An instruction with a next state reports no fault (R62). -/
theorem instrReport_ne_faultReport (i : Instr) (s : State) (f : Fault) : instrReport i s ≠ faultReport f := by
  obtain h | ⟨h, -⟩ | ⟨h, -⟩ := instrReport_cases i s <;> cases f <;> simp [h, faultReport]

end Sys2Proof.Machine

namespace Sys2Proof.Safety

open Sys2Proof.Machine

/-! ### What a step runs (40_machine_cycle.md R57 to R61) -/

/-- Settles O6: the fetch and the decoder answer, and `step` takes the arm of an instruction. -/
theorem stepRunsDecodedInstruction : Obligations.StepRunsDecodedInstruction := by
  intro s op i hop hi
  simp only [step, hop, hi]

section
variable {s : State} {op : Word}

/-- The instruction at pc is what the fetched word decodes to. -/
theorem instrAt_of_fetch (h : fetch s = .ok op) : instrAt s = decodeWord op := by
  simp only [instrAt, h]

/-- A step from a word that decodes to nothing only moves pc on by 2 (R61). -/
theorem step_of_unknownOpcode (hop : fetch s = .ok op) (hnone : decodeWord op = none) :
    step s = .next (s.act .cont) := by
  simp only [step, hop, hnone]
  exact done_eq_next.mpr rfl

theorem stepReport_of_unknownOpcode (hop : fetch s = .ok op) (hnone : decodeWord op = none) :
    stepReport s = .unknownOpcode op := by
  simp only [stepReport, hop, hnone]

/-- The unknown opcode as seen afterwards: pc + 2, and the frame (R61). -/
theorem exists_step_of_unknownOpcode (hop : fetch s = .ok op) (hnone : decodeWord op = none) :
    ∃ t, step s = .next t ∧ t.pc = s.pc + 2 ∧ OnlyChanges [.pc] s t :=
  ⟨_, step_of_unknownOpcode hop hnone, State.act_cont_pc s, .act s .cont⟩

end

/-- Settles O8: the next state is the one with pc + 2, and the report is the word's. -/
theorem unknownOpcodeAdvances : Obligations.UnknownOpcodeAdvances := by
  intro s op hop hnone
  obtain ⟨t, hstep, hpc, hframe⟩ := exists_step_of_unknownOpcode hop hnone
  exact ⟨t, hstep, hpc, hframe, stepReport_of_unknownOpcode hop hnone⟩

/-! ### What a step reports (40_machine_cycle.md R62) -/

section
variable {s : State}

/-- The three ways a step can end, each with its report: a fault, an unknown opcode, or an instruction's next state. -/
theorem stepReport_cases (s : State) :
    (∃ f, step s = .fault f ∧ stepReport s = faultReport f) ∨
      (∃ op, fetch s = .ok op ∧ decodeWord op = none ∧ stepReport s = .unknownOpcode op) ∨
      (∃ i t, instrAt s = some i ∧ step s = exec i s ∧ exec i s = .next t ∧ stepReport s = instrReport i s) := by
  obtain ⟨f, -, hstep, hrep⟩ | ⟨op, hop, hnone, -, hrep⟩ |
    ⟨op, i, hop, hi, hstep, ⟨f, hexec, hrep⟩ | ⟨hnofault, hrep⟩⟩ := step_cases s
  · exact .inl ⟨f, hstep, hrep⟩
  · exact .inr (.inl ⟨op, hop, hnone, hrep⟩)
  · exact .inl ⟨f, hstep.trans hexec, hrep⟩
  · obtain ⟨t, hexec⟩ := exists_exec_eq_next hnofault
    exact .inr (.inr ⟨i, t, (instrAt_of_fetch hop).trans hi, hstep, hexec, hrep⟩)

/-- A fault is reported exactly when the step is that fault. -/
theorem stepReport_eq_faultReport_iff (f : Fault) : stepReport s = faultReport f ↔ step s = .fault f := by
  obtain ⟨g, hstep, hrep⟩ | ⟨op, hop, hnone, hrep⟩ | ⟨i, t, -, hstep, hexec, hrep⟩ := stepReport_cases s
  · rw [hrep, hstep, faultReport_injective.eq_iff, Host.Outcome.fault.injEq]
  · rw [hrep, step_of_unknownOpcode hop hnone]
    cases f <;> simp [faultReport]
  · rw [hrep, hstep, hexec]
    simp [instrReport_ne_faultReport]

/-- UnknownOpcode is reported of the fetched word only, and only when it decodes to nothing. -/
theorem fetch_of_stepReport_unknownOpcode {op : Word} (h : stepReport s = .unknownOpcode op) :
    fetch s = .ok op ∧ decodeWord op = none := by
  obtain ⟨f, -, hrep⟩ | ⟨op', hop, hnone, hrep⟩ | ⟨i, t, -, -, -, hrep⟩ := stepReport_cases s
  · cases f <;> simp [hrep, faultReport] at h
  · obtain rfl : op' = op := by simpa [hrep] using h
    exact ⟨hop, hnone⟩
  · obtain hi | ⟨hi, -⟩ | ⟨hi, -⟩ := instrReport_cases i s <;> simp [hrep, hi] at h

/-- Every other report is that of the instruction at pc, which has a next state. -/
theorem exists_instr_of_stepReport {r : Report} (h : stepReport s = r)
    (hr : r = .normal ∨ r = .stackOverflow ∨ r = .stackUnderflow) :
    ∃ i t, instrAt s = some i ∧ step s = exec i s ∧ exec i s = .next t ∧ instrReport i s = r := by
  obtain ⟨f, -, hrep⟩ | ⟨op, -, -, hrep⟩ | ⟨i, t, hi, hstep, hexec, hrep⟩ := stepReport_cases s
  · cases f <;> simp [← h, hrep, faultReport] at hr
  · simp [← h, hrep] at hr
  · exact ⟨i, t, hi, hstep, hexec, hrep.symm.trans h⟩

/-- A reported StackOverflow is a 2NNN with a full stack, and a step to the same state (41_flow.md R67). -/
theorem step_of_stackOverflow (h : stepReport s = .stackOverflow) :
    step s = .next s ∧ s.sp.val = 16 ∧ ∃ nnn, instrAt s = some (.i2NNN nnn) := by
  obtain ⟨i, _, hi, hstep, -, hrep⟩ := exists_instr_of_stepReport h (by simp)
  obtain hn | ⟨-, hfull, nnn, rfl⟩ | ⟨hu, -⟩ := instrReport_cases i s
  · simp [hn] at hrep
  · exact ⟨hstep.trans (exec_i2NNN_of_full hfull), hfull, nnn, hi⟩
  · simp [hu] at hrep

/-- A reported StackUnderflow is a 00EE with an empty stack, and a step to the same state (41_flow.md R65). -/
theorem step_of_stackUnderflow (h : stepReport s = .stackUnderflow) :
    step s = .next s ∧ s.sp.val = 0 ∧ instrAt s = some .i00EE := by
  obtain ⟨i, _, hi, hstep, -, hrep⟩ := exists_instr_of_stepReport h (by simp)
  obtain hn | ⟨ho, -⟩ | ⟨-, hempty, rfl⟩ := instrReport_cases i s
  · simp [hn] at hrep
  · simp [ho] at hrep
  · exact ⟨hstep.trans (exec_i00EE_of_empty hempty), hempty, hi⟩

end

/-- Settles O11: one lemma per outcome; the two faults follow from one equivalence. -/
theorem reportMatchesStep : Obligations.ReportMatchesStep := by
  intro s
  refine ⟨fun h => ?normal, fun op h => ?unknownOpcode, step_of_stackOverflow, step_of_stackUnderflow,
    fun k a => stepReport_eq_faultReport_iff (.addressFault k a), fun v => stepReport_eq_faultReport_iff (.keyIndexFault v)⟩
  case normal =>
    obtain ⟨i, t, hi, hstep, hexec, -⟩ := exists_instr_of_stepReport h (.inl rfl)
    exact ⟨t, i, hstep.trans hexec, hi⟩
  case unknownOpcode =>
    obtain ⟨hop, hnone⟩ := fetch_of_stepReport_unknownOpcode h
    exact ⟨hop, hnone, exists_step_of_unknownOpcode hop hnone⟩

/-! ### The parts that a step leaves alone (40_machine_cycle.md R63) -/

/-- A step keeps every part but pc that the instruction at pc, if there is one, may not write. -/
theorem step_keeps_part {s t : State} {p : Part} (h : step s = .next t) (hpc : p ≠ .pc)
    (hp : ∀ i, instrAt s = some i → p ∉ mayWrite i) : p.Same s t := by
  obtain ⟨op, hop, ⟨i, hi, hexec⟩ | ⟨-, rfl⟩⟩ := step_eq_next h
  · exact exec_onlyChanges_mayWrite hexec p (hp i ((instrAt_of_fetch hop).trans hi))
  · exact OnlyChanges.act s .cont p (by simpa using hpc)

theorem key_notMem_mayWrite (i : Instr) : Part.key ∉ mayWrite i := by
  cases i <;> simp [mayWrite]

theorem dt_mem_mayWrite_iff {i : Instr} : Part.dt ∈ mayWrite i ↔ ∃ x, i = .iFX15 x := by
  cases i <;> simp [mayWrite]

theorem st_mem_mayWrite_iff {i : Instr} : Part.st ∈ mayWrite i ↔ ∃ x, i = .iFX18 x := by
  cases i <;> simp [mayWrite]

/-- Settles O47: no row of the access matrix marks a key W, and only those of FX15 and FX18 mark DT and ST. -/
theorem stepLeavesKeysAndTimers : Obligations.StepLeavesKeysAndTimers := by
  intro s t h
  have keys : Part.key.Same s t := step_keeps_part h (by decide) fun i _ => key_notMem_mayWrite i
  refine ⟨keys, fun hne => ?dt, fun hne => ?st⟩
  case dt =>
    refine step_keeps_part (p := .dt) h (by decide) fun i hi hmem => ?_
    obtain ⟨x, rfl⟩ := dt_mem_mayWrite_iff.mp hmem
    exact hne x hi
  case st =>
    refine step_keeps_part (p := .st) h (by decide) fun i hi hmem => ?_
    obtain ⟨x, rfl⟩ := st_mem_mayWrite_iff.mp hmem
    exact hne x hi

end Sys2Proof.Safety

/-! SUPPORT. Proofs of the statements about control transfer (41_flow.md): jumps, calls and returns, and the skips that
compare registers. -/

namespace Sys2Proof.Machine

/-! ### Push and pop where they succeed (10_state.md R17) -/

section
variable {s : State} {k : Fin 16}

/-- A push with k entries, fewer than 16, stores in slot k. -/
theorem State.push_of_sp_eq (w : Word) (h : s.sp.val = k.val) :
    s.push w = some { s with stack := s.stack.set k.val w, sp := k.succ } := by
  have hsp : s.sp = k.castSucc := Fin.ext h
  simp [State.push, hsp, Fin.succ]

/-- A pop with k + 1 entries takes slot k. -/
theorem State.pop_of_sp_eq (h : s.sp.val = k.val + 1) : s.pop = some (s.stack[k.val], { s with sp := k.castSucc }) := by
  have hsp : s.sp = k.succ := Fin.ext h
  simp only [State.pop, hsp, Fin.val_succ, Nat.add_one_ne_zero, dite_false, Nat.add_sub_cancel]
  rfl

/-! ### Calls and returns where they jump (41_flow.md R65, R67) -/

/-- A call with k entries, fewer than 16, stores pc + 2 in slot k and jumps to NNN (R67). -/
theorem exec_i2NNN_of_sp_eq (nnn : Addr12) (h : s.sp.val = k.val) :
    exec (.i2NNN nnn) s =
      .next { s with stack := s.stack.set k.val (s.pc + 2), sp := k.succ, pc := zext16 nnn } := by
  simp only [exec, exec2NNN, State.push_of_sp_eq _ h]
  exact done_eq_next.mpr rfl

/-- A return with k + 1 entries jumps to slot k (R65). -/
theorem exec_i00EE_of_sp_eq (h : s.sp.val = k.val + 1) :
    exec .i00EE s = .next { s with sp := k.castSucc, pc := s.stack[k.val] } := by
  simp only [exec, exec00EE, State.pop_of_sp_eq h]
  exact done_eq_next.mpr rfl

end

theorem instrReport_i2NNN (nnn : Addr12) (s : State) :
    instrReport (.i2NNN nnn) s = if s.sp.val = 16 then .stackOverflow else .normal := by
  simp [instrReport, State.push_eq_none]

theorem instrReport_i00EE (s : State) :
    instrReport .i00EE s = if s.sp.val = 0 then .stackUnderflow else .normal := by
  simp [instrReport, State.pop_eq_none]

/-! ### Jump targets as numbers (41_flow.md R66, R72) -/

/-- NNN zero-extended is NNN. -/
theorem toNat_zext16_addr (nnn : Addr12) : (zext16 nnn).toNat = nnn.toNat :=
  BitVec.toNat_setWidth_of_le (by decide)

/-- The target of BNNN is the exact sum, which fits in 16 bits (R72). -/
theorem toNat_indexedTarget (nnn : Addr12) (b : Byte) : (zext16 nnn + zext16 b).toNat = nnn.toNat + b.toNat := by
  have hb : (zext16 b).toNat = b.toNat := BitVec.toNat_setWidth_of_le (by decide)
  have := nnn.isLt
  have := b.isLt
  rw [BitVec.toNat_add, toNat_zext16_addr, hb]
  omega

end Sys2Proof.Machine

namespace Sys2Proof.Safety

open Sys2Proof.Machine

/-! ### An instruction's opcode as a number (30_encoding.md R46) -/

/-- An instruction's opcode is the number of the encoder's word. -/
theorem encodedAs_of_toNat_encode {i : Instr} {n : Nat} (h : (encode i).toNat = n) : EncodedAs i n := by
  rw [EncodedAs, decodeWord_eq_some_iff, ← h, BitVec.ofNat_toNat, BitVec.setWidth_eq]

/-- The opcode of format XI with family f: X has the weight 0x100, NN the weight 1. -/
theorem encodedAs_of_formatXI {i : Instr} {x : Reg} {nn : Byte} (f : BitVec 4) (h : encode i = formatXI f x nn) :
    EncodedAs i (f.toNat * 0x1000 + 0x100 * x.val + nn.toNat) :=
  encodedAs_of_toNat_encode (by simp [h, formatXI_toNat, Nat.mul_comm])

/-- The opcode of format XY with family f and last nibble 0: X has the weight 0x100, Y the weight 0x10. -/
theorem encodedAs_of_formatXY {i : Instr} {x y : Reg} (f : BitVec 4) (h : encode i = formatXYN f x y 0) :
    EncodedAs i (f.toNat * 0x1000 + 0x100 * x.val + 0x10 * y.val) :=
  encodedAs_of_toNat_encode (by simp [h, formatXYN_toNat, Nat.mul_comm])

/-! ### Calls and returns -/

/-- Settles O14: below 16 entries the call writes the slot that SP names; with 16 there is none, and the push fails. -/
theorem callPushesReturnAddress : Obligations.CallPushesReturnAddress := by
  intro nnn s
  refine ⟨encodedAs_of_toNat_encode (formatA_toNat 0x2 nnn), fun hlt => ?pushes, fun hfull => ?overflows⟩
  case pushes =>
    refine ⟨by simp [instrReport_i2NNN, hlt.ne], _, exec_i2NNN_of_sp_eq (k := ⟨s.sp.val, hlt⟩) nnn rfl, rfl,
      toNat_zext16_addr nnn, fun j => ?_, .stackUpdate s _ _ _⟩
    simp only [Vector.getElem_set, eq_comm]
  case overflows => exact ⟨by simp [instrReport_i2NNN, hfull], exec_i2NNN_of_full hfull⟩

/-- Settles O15: with k + 1 entries the pop takes slot k and writes no slot; with none it fails. -/
theorem returnPopsReturnAddress : Obligations.ReturnPopsReturnAddress := by
  refine ⟨encodedAs_of_toNat_encode rfl, fun s k hsp => ?pops, fun s hempty => ?underflows⟩
  case pops =>
    exact ⟨by simp [instrReport_i00EE, hsp], _, exec_i00EE_of_sp_eq hsp, rfl, rfl, rfl, .stackUpdate s _ _ _⟩
  case underflows => exact ⟨by simp [instrReport_i00EE, hempty], exec_i00EE_of_empty hempty⟩

/-- Settles O16: the return pops the slot the call has just written, so it reads pc + 2 back. -/
theorem returnMatchesCall : Obligations.ReturnMatchesCall := by
  intro nnn s hlt
  let k : Fin 16 := ⟨s.sp.val, hlt⟩
  exact ⟨_, _, exec_i2NNN_of_sp_eq (k := k) nnn rfl, exec_i00EE_of_sp_eq (k := k) rfl, Vector.getElem_set_self k.isLt,
    rfl, fun j hj => Vector.getElem_set_ne k.isLt j.isLt hj.symm, .stackUpdate s _ _ _⟩

/-! ### Skips (41_flow.md R64 d) -/

/-- A skip on a condition: only pc moves, by 4 or by 2 modulo 65536 (40_machine_cycle.md R60). -/
theorem exists_skipIf_eq_next {c : Bool} {p : Prop} [Decidable p] (hc : c = true ↔ p) (s : State) :
    ∃ t, skipIf c s = .next t ∧ OnlyChanges [.pc] s t ∧ t.pc.toNat = (s.pc.toNat + if p then 4 else 2) % 0x10000 := by
  refine ⟨_, skipIf_eq c s, .act s (.jump _), ?_⟩
  rw [State.setPc_pc, BitVec.toNat_add]
  by_cases hp : p <;> simp [hc, hp]

/-- Settles O17: both instructions end as a skip, on VX = NN or on its negation. -/
theorem skipComparesImmediate : Obligations.SkipComparesImmediate := fun _ _ s =>
  ⟨encodedAs_of_formatXI 0x3 rfl, encodedAs_of_formatXI 0x4 rfl, exists_skipIf_eq_next beq_iff_eq s,
    exists_skipIf_eq_next bne_iff_ne s⟩

/-- Settles O18: both instructions end as a skip, on VX = VY or on its negation. -/
theorem skipComparesRegisters : Obligations.SkipComparesRegisters := fun _ _ s =>
  ⟨encodedAs_of_formatXY 0x5 rfl, encodedAs_of_formatXY 0x9 rfl, exists_skipIf_eq_next beq_iff_eq s,
    exists_skipIf_eq_next bne_iff_ne s⟩

/-! ### Jumps -/

/-- Settles O12: the jump sets pc to NNN and no other part. -/
theorem jumpSetsPc : Obligations.JumpSetsPc := fun nnn s =>
  ⟨encodedAs_of_toNat_encode (formatA_toNat 0x1 nnn), _, done_eq_next.mpr rfl, toNat_zext16_addr nnn, .act s (.jump _)⟩

/-- Settles O13: the jump sets pc to the sum, which does not wrap, and no other part. -/
theorem indexedJumpAddsV0 : Obligations.IndexedJumpAddsV0 := fun nnn s =>
  ⟨encodedAs_of_toNat_encode (formatA_toNat 0xB nnn), _, done_eq_next.mpr rfl, toNat_indexedTarget nnn (s.getV 0),
    .act s (.jump _)⟩

end Sys2Proof.Safety

/-! SUPPORT. Proofs of the statements about register load, arithmetic and logic (42_alu.md): the flags as numbers, and
what an instruction leaves when it ends with a register written, or with a result and its flag. -/

namespace Sys2Proof.Machine

/-! ### The flags as numbers (42_alu.md R73 e) -/

section
variable (a b : Byte)

theorem toNat_flagByte (c : Bool) : (flagByte c).toNat = c.toNat := by
  cases c <;> rfl

theorem toNat_flagByte_decide (p : Prop) [Decidable p] : (flagByte p).toNat = if p then 1 else 0 :=
  (toNat_flagByte _).trans (apply_ite Bool.toNat p true false)

/-- The carry of 8XY4 (R80). -/
theorem toNat_carryOut : (carryOut a b).toNat = if a.toNat + b.toNat > 255 then 1 else 0 :=
  toNat_flagByte_decide _

/-- The no-borrow flag of 8XY5 and 8XY7 (R81, R83). -/
theorem toNat_noBorrow : (noBorrow a b).toNat = if a.toNat ≥ b.toNat then 1 else 0 :=
  toNat_flagByte_decide _

/-- A bit of a byte, as VF holds it. -/
theorem toNat_flagByte_getLsbD (k : Nat) : (flagByte (a.getLsbD k)).toNat = a.toNat / 2 ^ k % 2 := by
  rw [toNat_flagByte, ← BitVec.testBit_toNat, Nat.toNat_testBit]

/-- The bit 8XY6 shifts out is the remainder by 2 (R82). -/
theorem toNat_shiftedOutRight : (shiftedOutRight a).toNat = a.toNat % 2 := by
  rw [shiftedOutRight, toNat_flagByte_getLsbD, pow_zero, Nat.div_one]

/-- The bit 8XYE shifts out is the quotient by 128 (R84). -/
theorem toNat_shiftedOutLeft : (shiftedOutLeft a).toNat = a.toNat / 128 := by
  have := a.isLt
  rw [shiftedOutLeft, toNat_flagByte_getLsbD]
  omega

/-! ### The results as numbers (R80 to R84) -/

/-- The difference modulo 256, with no negative number on the way. -/
theorem toNat_sub_byte : (a - b).toNat = (a.toNat + 256 - b.toNat) % 256 := by
  bv_omega

theorem toNat_ushiftRight_one : (a >>> 1).toNat = a.toNat / 2 := by
  rw [BitVec.toNat_ushiftRight, Nat.shiftRight_one]

theorem toNat_shiftLeft_one : (a <<< 1).toNat = a.toNat * 2 % 256 := by
  rw [BitVec.toNat_shiftLeft, Nat.shiftLeft_eq, pow_one]

/-- A masked byte has no bit outside the mask (R85). -/
theorem and_mask_and_not : (a &&& b) &&& ~~~b = 0 := by
  rw [BitVec.and_assoc, BitVec.and_not_self]
  exact BitVec.and_zero

end

end Sys2Proof.Machine

namespace Sys2Proof.Safety

open Sys2Proof.Machine

/-- The opcode of format XY with family f and last nibble n: X has the weight 0x100, Y the weight 0x10. -/
theorem encodedAs_of_formatXYN {i : Instr} {x y : Reg} (f : BitVec 4) (n : Nibble) (h : encode i = formatXYN f x y n) :
    EncodedAs i (f.toNat * 0x1000 + n.toNat + 0x100 * x.val + 0x10 * y.val) :=
  encodedAs_of_toNat_encode (by rw [h, formatXYN_toNat]; omega)

section
variable {i : Instr} {s u : State} {x : Reg} {a b r f : Byte}

/-! ### What the two endings of these instructions leave (R73) -/

/-- An instruction that ends by writing V[X] in a state u, the one it began in or the one after a draw, and going on:
no other register differs from u, VF included, and the other parts are as the access matrix says (10_state.md R27). -/
theorem exists_exec_of_setV (h : exec i s = done .cont (u.setV x b)) :
    ∃ t, exec i s = .next t ∧ t.pc = u.pc + 2 ∧ t.getV x = b ∧ (∀ y, y ≠ x → t.getV y = u.getV y) ∧
      OnlyChanges (mayWrite i) s t :=
  ⟨_, h, rfl, by simp, fun y hy => by simp [hy], exec_onlyChanges_mayWrite h⟩

/-- The byte that is written, bit by bit, where each bit is an operation on that bit of two bytes (R77 to R79). -/
theorem exists_exec_of_setV_bitwise {c : Byte} (op : Bool → Bool → Bool) (h : exec i s = done .cont (s.setV x c))
    (hc : ∀ k, c.getLsbD k = op (a.getLsbD k) (b.getLsbD k)) :
    ∃ t, exec i s = .next t ∧ t.pc = s.pc + 2 ∧ (∀ k < 8, (t.getV x).getLsbD k = op (a.getLsbD k) (b.getLsbD k)) ∧
      (∀ y, y ≠ x → t.getV y = s.getV y) ∧ OnlyChanges (mayWrite i) s t := by
  obtain ⟨t, ht, hpc, hx, hothers, hframe⟩ := exists_exec_of_setV h
  exact ⟨t, ht, hpc, fun k _ => hx ▸ hc k, hothers, hframe⟩

/-- An instruction that ends by writing a result to V[X] and a flag to VF, and going on: VF holds the flag, whatever X
is, and V[X] the result unless X = F (R73 f). -/
theorem exists_exec_of_setResultFlag {flag result : Nat} (h : exec i s = done .cont (s.setResultFlag x r f))
    (hf : f.toNat = flag) (hr : r.toNat = result) :
    ∃ t, exec i s = .next t ∧ t.pc = s.pc + 2 ∧ (t.getV 15).toNat = flag ∧ (x ≠ 15 → (t.getV x).toNat = result) ∧
      (∀ y, y ≠ x → y ≠ 15 → t.getV y = s.getV y) ∧ OnlyChanges (mayWrite i) s t := by
  subst hf hr
  refine ⟨_, h, rfl, congrArg BitVec.toNat (getV_regF_of_done_setResultFlag rfl), fun hx => ?result,
    fun y hyx hyF => ?others, exec_onlyChanges_mayWrite h⟩
  case result => simp [regF, hx]
  case others => simp [regF, hyx, hyF]

end

/-! ### Result and flag -/

/-- Settles O22: the result is the sum of the bytes, the flag its carry. -/
theorem addSetsCarry : Obligations.AddSetsCarry := fun _ _ _ =>
  ⟨encodedAs_of_formatXYN 0x8 0x4 rfl, exists_exec_of_setResultFlag rfl (toNat_carryOut _ _) (BitVec.toNat_add _ _)⟩

/-- Settles O23: the two instructions differ in which register is the minuend. -/
theorem subtractSetsNoBorrow : Obligations.SubtractSetsNoBorrow := fun _ _ _ =>
  ⟨encodedAs_of_formatXYN 0x8 0x5 rfl, encodedAs_of_formatXYN 0x8 0x7 rfl,
    exists_exec_of_setResultFlag rfl (toNat_noBorrow _ _) (toNat_sub_byte _ _),
    exists_exec_of_setResultFlag rfl (toNat_noBorrow _ _) (toNat_sub_byte _ _)⟩

/-- Settles O24: the bit shifted out is the remainder by 2, or the quotient by 128, of the byte that is shifted. -/
theorem shiftMovesOneBitOut : Obligations.ShiftMovesOneBitOut := fun _ _ _ =>
  ⟨encodedAs_of_formatXYN 0x8 0x6 rfl, encodedAs_of_formatXYN 0x8 0xE rfl,
    exists_exec_of_setResultFlag rfl (toNat_shiftedOutRight _) (toNat_ushiftRight_one _),
    exists_exec_of_setResultFlag rfl (toNat_shiftedOutLeft _) (toNat_shiftLeft_one _)⟩

/-! ### One register written, no flag -/

/-- Settles O21: each instruction writes the bitwise operation of the two bytes to V[X] and no other register. -/
theorem logicIsBitwise : Obligations.LogicIsBitwise := fun _ _ _ =>
  ⟨encodedAs_of_formatXYN 0x8 0x1 rfl, encodedAs_of_formatXYN 0x8 0x2 rfl, encodedAs_of_formatXYN 0x8 0x3 rfl,
    exists_exec_of_setV_bitwise or rfl fun _ => BitVec.getLsbD_or,
    exists_exec_of_setV_bitwise and rfl fun _ => BitVec.getLsbD_and,
    exists_exec_of_setV_bitwise xor rfl fun _ => BitVec.getLsbD_xor⟩

/-- Settles O19: each instruction writes its byte to V[X] and no other register. -/
theorem loadAndCopyWriteVX : Obligations.LoadAndCopyWriteVX := fun _ _ _ _ =>
  ⟨encodedAs_of_formatXI 0x6 rfl, encodedAs_of_formatXY 0x8 rfl, exists_exec_of_setV rfl, exists_exec_of_setV rfl⟩

/-- Settles O20: the byte written to V[X] is the sum of two bytes. -/
theorem addImmediateWraps : Obligations.AddImmediateWraps := fun _ _ _ =>
  ⟨encodedAs_of_formatXI 0x7 rfl, (exists_exec_of_setV rfl).imp fun _ ⟨ht, hpc, hx, hothers, hframe⟩ =>
    ⟨ht, hpc, hx ▸ BitVec.toNat_add _ _, hothers, hframe⟩⟩

/-- Settles O25: V[X] is written in the state after the draw, which differs from s in the counter alone. -/
theorem randomByteIsMasked : Obligations.RandomByteIsMasked := by
  intro x nn s
  obtain ⟨t, ht, hpc, hx, hothers, hframe⟩ := exists_exec_of_setV (i := .iCXNN x nn) (s := s) rfl
  have hdraws : t.draws = s.draws + 1 := by
    obtain rfl := done_eq_next.mp ht
    rfl
  exact ⟨encodedAs_of_formatXI 0xC rfl, t, ht, hpc, fun k _ => hx ▸ BitVec.getLsbD_and, hx ▸ and_mask_and_not _ _,
    hdraws, hothers, hframe⟩

end Sys2Proof.Safety

/-! SUPPORT. Proofs of the statements about the index register and memory transfer (43_index_memory.md): what an
instruction leaves when it ends with I written, when it stores a block of bytes at I, and when FX65 loads one. -/

namespace Sys2Proof.Machine

/-! ### The new values of I and the stored digits as numbers (43_index_memory.md R88 to R90) -/

/-- The sum that FX1E writes wraps at 16 bits (R88). -/
theorem toNat_add_zext16_byte (w : Word) (b : Byte) : (w + zext16 b).toNat = (w.toNat + b.toNat) % 0x10000 := by
  have hb : (zext16 b).toNat = b.toNat := BitVec.toNat_setWidth_of_le (by decide)
  rw [BitVec.toNat_add, hb]

/-- A digit's glyph lies at 0x50 + 5 * digit, which fits in 16 bits (R89). -/
theorem toNat_glyphAddr_of_le {v : Byte} (h : v.toNat ≤ 0x0F) : (glyphAddr v).toNat = 0x0050 + 5 * v.toNat := by
  rw [glyphAddr, if_pos h, BitVec.toNat_ofNat, Config.fontBase, Config.glyphBytes]
  omega

/-- Above the digits the address is the open parameter (R89). -/
theorem glyphAddr_of_lt {v : Byte} (h : 0x0F < v.toNat) : glyphAddr v = Config.fx29High v := by
  rw [glyphAddr, if_neg (Nat.not_le.mpr h)]

/-- Digit k of a byte as a number, hundreds first (R90). -/
theorem toNat_getElem_bcdDigits (v : Byte) {k : Nat} (h : k < 3) :
    ((bcdDigits v)[k]'h).toNat = [v.toNat / 100, v.toNat / 10 % 10, v.toNat % 10][k] :=
  (List.getElem_map _).symm.trans (List.getElem_of_eq (toNat_bcdDigits v) h)

/-! ### Accesses to the bytes I to I + n (20_memory.md R33, R34) -/

section
variable {k : AccessKind} {s : State} {n : Nat} {r : Result}

/-- The whole access is in range when its last byte is. -/
theorem guarded_effAddr_of_le (h : s.i.toNat + n ≤ 0xFFF) : guarded k (s.effAddr 0) (n + 1) r = r := by
  have hrange : s.effAddr 0 + (n + 1) ≤ Config.memSize := by
    rw [State.effAddr, Config.memSize]
    omega
  exact guarded_of_inRange (.inr hrange)

/-- An access with its last byte out of range is a fault at the lowest byte out of range. -/
theorem guarded_effAddr_of_lt (h : 0xFFF < s.i.toNat + n) :
    guarded k (s.effAddr 0) (n + 1) r = .fault (.addressFault k (max s.i.toNat 0x1000)) := by
  have hrange : Config.memSize < s.effAddr 0 + (n + 1) := by
    rw [State.effAddr, Config.memSize]
    omega
  exact guarded_of_outOfRange n.succ_pos hrange

end

section
variable (m : Memory) (a : Nat) {bs : List Byte}

/-- Byte k of a block that was written is byte k of the list. -/
theorem read_writeBytes_add {k : Nat} (h : k < bs.length) : (m.writeBytes a bs).read (a + k) = bs[k] := by
  rw [Memory.read_writeBytes, dif_pos ⟨Nat.le_add_right _ _, by rwa [Nat.add_sub_cancel_left]⟩]
  simp only [Nat.add_sub_cancel_left]

/-- A block write leaves the bytes below and above the block alone. -/
theorem read_writeBytes_of_outside {c : Nat} (h : c < a ∨ a + bs.length ≤ c) :
    (m.writeBytes a bs).read c = m.read c := by
  rw [Memory.read_writeBytes, dif_neg (by omega)]

end

/-- FX65 in range: the bytes from I on loaded into V0 to VX, and pc + 2. -/
theorem exec_iFX65_of_inRange {x : Reg} {s : State} (h : s.i.toNat + x.val ≤ 0xFFF) :
    exec (.iFX65 x) s = .next ((s.loadRegs 0 (s.mem.readBytes (s.effAddr 0) (x.val + 1))).act .cont) :=
  guarded_effAddr_of_le h

end Sys2Proof.Machine

namespace Sys2Proof.Safety

open Sys2Proof.Machine

/-! ### The opcode of format XI with a fixed low byte (30_encoding.md R46) -/

/-- The opcode of format XI with family f and NN a part of the pattern: X has the weight 0x100. -/
theorem encodedAs_of_formatXI_fixed {i : Instr} {x : Reg} (f : BitVec 4) (nn : Byte) (h : encode i = formatXI f x nn) :
    EncodedAs i (f.toNat * 0x1000 + nn.toNat + 0x100 * x.val) :=
  Nat.add_right_comm _ _ _ ▸ encodedAs_of_formatXI f h

section
variable {i : Instr} {s : State}

/-! ### What the endings of these instructions leave -/

/-- An instruction that ends by writing I and going on. -/
theorem exists_exec_of_setI {w : Word} (h : exec i s = done .cont (s.setI w)) :
    ∃ t, exec i s = .next t ∧ t.pc = s.pc + 2 ∧ t.i = w ∧ OnlyChanges (mayWrite i) s t :=
  ⟨_, h, rfl, rfl, exec_onlyChanges_mayWrite h⟩

/-- An instruction that stores n + 1 bytes at I and goes on, in range: each byte in its place from I on, and no byte
outside I to I + n changed (R90, R91). -/
theorem exists_exec_of_blockStore {bs : List Byte} {n : Nat}
    (h : exec i s =
      guarded .write (s.effAddr 0) (n + 1) (done .cont (s.setMem (s.mem.writeBytes (s.effAddr 0) bs))))
    (hlen : bs.length = n + 1) (hrange : s.i.toNat + n ≤ 0xFFF) :
    ∃ t, exec i s = .next t ∧ t.pc = s.pc + 2 ∧ (∀ k (hk : k < bs.length), t.byteAt (s.effAddr k) = bs[k]) ∧
      (∀ a, (a < s.effAddr 0 ∨ s.effAddr n < a) → t.byteAt a = s.byteAt a) ∧ OnlyChanges (mayWrite i) s t := by
  have hexec := h.trans (guarded_effAddr_of_le hrange)
  refine ⟨_, hexec, rfl, fun k hk => read_writeBytes_add s.mem (s.effAddr 0) hk, fun a ha => ?_,
    exec_onlyChanges_mayWrite hexec⟩
  exact read_writeBytes_of_outside s.mem (s.effAddr 0) (ha.imp_right fun hlt => hlen ▸ hlt)

end

/-- FX65 in range: byte k from I on in register k up to VX, and the registers above VX kept (R92). -/
theorem exists_exec_iFX65_of_inRange {x : Reg} {s : State} (h : s.i.toNat + x.val ≤ 0xFFF) :
    ∃ t, exec (.iFX65 x) s = .next t ∧ t.pc = s.pc + 2 ∧
      (∀ k : Reg, k ≤ x → t.getV k = s.byteAt (s.effAddr k.val)) ∧ (∀ k : Reg, x < k → t.getV k = s.getV k) ∧
      OnlyChanges [.v, .pc] s t := by
  have hpcKept := OnlyChanges.loadRegs s 0 (s.mem.readBytes (s.effAddr 0) (x.val + 1)) .pc (by decide)
  refine ⟨_, exec_iFX65_of_inRange h, congrArg (· + 2) hpcKept, fun k hk => ?loaded, fun k hk => ?kept,
    exec_onlyChanges_mayWrite (exec_iFX65_of_inRange h)⟩
  case loaded => exact (getV_loadRegs_readBytes s s.mem (s.effAddr 0) x k).trans (if_pos hk)
  case kept => exact (getV_loadRegs_readBytes s s.mem (s.effAddr 0) x k).trans (if_neg (Fin.not_le.mpr hk))

/-! ### Stores and loads of a block -/

/-- Settles O30: the three bytes stored are the digits of VX. -/
theorem storeDecimalDigits : Obligations.StoreDecimalDigits := by
  refine fun x s => ⟨encodedAs_of_formatXI_fixed 0xF 0x33 rfl, fun hrange => ?stores, guarded_effAddr_of_lt⟩
  obtain ⟨t, ht, hpc, hbytes, houtside, hframe⟩ := exists_exec_of_blockStore (i := .iFX33 x) rfl rfl hrange
  have hdigit (k : Nat) (hk : k < 3) :=
    (congrArg BitVec.toNat (hbytes k hk)).trans (toNat_getElem_bcdDigits (s.getV x) hk)
  exact ⟨t, ht, hpc, hdigit 0 (by decide), hdigit 1 (by decide), hdigit 2 (by decide), houtside, hframe⟩

/-- Settles O31: the bytes stored are the registers V0 to VX. -/
theorem storeRegisterBlock : Obligations.StoreRegisterBlock := by
  refine fun x s => ⟨encodedAs_of_formatXI_fixed 0xF 0x55 rfl, fun hrange => ?stores, guarded_effAddr_of_lt⟩
  obtain ⟨t, ht, hpc, hbytes, hkept⟩ :=
    exists_exec_of_blockStore (i := .iFX55 x) rfl (length_regsUpTo s x) hrange
  refine ⟨t, ht, hpc, fun k hk => ?_, hkept⟩
  have hlen : k.val < (s.regsUpTo x).length := length_regsUpTo s x ▸ Nat.lt_succ_of_le hk
  exact (hbytes k.val hlen).trans (getElem_regsUpTo s x k hlen)

/-- Settles O32: the bytes loaded are those from I to I + X. -/
theorem loadRegisterBlock : Obligations.LoadRegisterBlock := fun _ _ =>
  ⟨encodedAs_of_formatXI_fixed 0xF 0x65 rfl, exists_exec_iFX65_of_inRange, guarded_effAddr_of_lt⟩

/-- Settles O33: the store leaves I alone, so the load reads each register's byte where the store put it. -/
theorem blockLoadReturnsBlockStore : Obligations.BlockLoadReturnsBlockStore := by
  intro x s u hrange
  obtain ⟨t, ht, -, hstored⟩ := exists_exec_iFX55_of_inRange hrange
  have hti : t.i = s.i := exec_onlyChanges_mayWrite ht .i (by simp [mayWrite])
  refine ⟨t, ht, fun hmem hi => ?_⟩
  have hui : u.i = s.i := hi.trans hti
  obtain ⟨w, hw, -, hloaded, habove, -⟩ := exists_exec_iFX65_of_inRange (x := x) (s := u) (by rwa [hui])
  refine ⟨w, hw, fun k => ⟨fun hk => ?_, habove k⟩⟩
  calc w.getV k = u.byteAt (u.effAddr k.val) := hloaded k hk
    _ = t.byteAt (s.effAddr k.val) := by rw [State.effAddr, hui, State.byteAt_congr hmem, State.effAddr]
    _ = s.getV k := hstored k hk

/-! ### I written -/

/-- Settles O29: the address written to I is a glyph's, or the open parameter. -/
theorem glyphAddressOfDigit : Obligations.GlyphAddressOfDigit := by
  intro x s
  obtain ⟨t, ht, hpc, hi, hframe⟩ := exists_exec_of_setI (i := .iFX29 x) (s := s) rfl
  exact ⟨encodedAs_of_formatXI_fixed 0xF 0x29 rfl, t, ht, hpc, hframe, fun hdigit => hi ▸ toNat_glyphAddr_of_le hdigit,
    fun hhigh => hi ▸ glyphAddr_of_lt hhigh⟩

/-- Settles O27: NNN is zero-extended to the 16 bits of I. -/
theorem loadIndexSetsI : Obligations.LoadIndexSetsI := by
  intro nnn s
  obtain ⟨t, ht, hpc, hi, hframe⟩ := exists_exec_of_setI (i := .iANNN nnn) (s := s) rfl
  exact ⟨encodedAs_of_toNat_encode (formatA_toNat 0xA nnn), t, ht, hpc, hi ▸ toNat_zext16_addr nnn, hframe⟩

/-- Settles O28: the sum is one of 16-bit words, and the instruction may write I and pc alone. -/
theorem addIndexWrapsAt16Bits : Obligations.AddIndexWrapsAt16Bits := by
  intro x s
  obtain ⟨t, ht, hpc, hi, hframe⟩ := exists_exec_of_setI (i := .iFX1E x) (s := s) rfl
  exact ⟨encodedAs_of_formatXI_fixed 0xF 0x1E rfl, t, ht, hpc, hi ▸ toNat_add_zext16_byte s.i (s.getV x), hframe⟩

end Sys2Proof.Safety

/-! SUPPORT. Proofs of the statements about the display (44_display.md): what a draw leaves, in terms of the image DXYN
draws, and where that image is on. -/

namespace Sys2Proof.Safety

open Sys2Proof.Machine

/-! ### The collision flag as VF holds it (44_display.md R94) -/

section
variable (p : Prop) [Decidable p]

theorem flagByte_decide_eq_one_iff : flagByte p = 1 ↔ p := by
  by_cases hp : p <;> simp [flagByte, hp]

theorem flagByte_decide_eq_zero_iff : flagByte p = 0 ↔ ¬ p := by
  by_cases hp : p <;> simp [flagByte, hp]

end

/-! ### The image DXYN draws (R94, R95 b) -/

/-- The wrapped image of the n bytes at I, placed at (VX, VY). -/
def drawnImage (x y : Reg) (n : Nibble) (s : State) : Fin 64 → Fin 32 → Bool :=
  spriteImage (s.getV x) (s.getV y) (s.mem.readBytes (s.effAddr 0) n.toNat)

section
variable {x y : Reg} {n : Nibble} {s t : State}

/-- The image by the distances from (VX, VY), taken round the edges. -/
theorem drawnImage_eq (a : Fin 64) (b : Fin 32) :
    drawnImage x y n s a b = (decide (colDist (s.getV x) a < 8) &&
      ((s.mem.readBytes (s.effAddr 0) n.toNat).getD (lineDist (s.getV y) b) 0).getLsbD (7 - colDist (s.getV x) a)) :=
  rfl

/-- Where column c of sprite row r lands, the image is that bit of the sprite. -/
theorem drawnImage_drawCol_drawLine {r c : Nat} (hr : r < n.toNat) (hc : c < 8) :
    drawnImage x y n s (drawCol (s.getV x) c) (drawLine (s.getV y) r) =
      (s.byteAt (s.effAddr r)).getLsbD (7 - c) := by
  have hcol : colDist (s.getV x) (drawCol (s.getV x) c) = c := (eq_drawCol_iff _ _ _ (by omega)).mp rfl
  have hline : lineDist (s.getV y) (drawLine (s.getV y) r) = r := (eq_drawLine_iff _ _ _ (by omega)).mp rfl
  have hbyte : (s.mem.readBytes (s.effAddr 0) n.toNat).getD r 0 = s.byteAt (s.effAddr r) := by
    rw [List.getD_eq_getElem _ _ (by simpa using hr), Memory.getElem_readBytes]
    rfl
  rw [drawnImage_eq, hcol, hline, hbyte, decide_eq_true hc, Bool.true_and]

/-- The image is on only where a column of a sprite row lands. -/
theorem exists_lands_of_drawnImage {a : Fin 64} {b : Fin 32} (h : drawnImage x y n s a b = true) :
    ∃ r < n.toNat, ∃ c < 8, a = drawCol (s.getV x) c ∧ b = drawLine (s.getV y) r := by
  rw [drawnImage_eq, Bool.and_eq_true, decide_eq_true_eq] at h
  obtain ⟨hcol, hbit⟩ := h
  have hline : lineDist (s.getV y) b < n.toNat := by
    by_contra hge
    rw [List.getD_eq_default _ _ (by simpa using hge)] at hbit
    simp at hbit
  exact ⟨_, hline, _, hcol, (eq_drawCol_iff _ _ _ (by omega)).mpr rfl, (eq_drawLine_iff _ _ _ (by omega)).mpr rfl⟩

/-- The image depends on VX, VY, I and memory alone. -/
theorem drawnImage_congr (hx : t.getV x = s.getV x) (hy : t.getV y = s.getV y) (hi : t.i = s.i)
    (hmem : ∀ a, t.byteAt a = s.byteAt a) : drawnImage x y n t = drawnImage x y n s := by
  have hsprite : t.mem.readBytes (t.effAddr 0) n.toNat = s.mem.readBytes (s.effAddr 0) n.toNat :=
    List.ext_getElem (by simp) fun k _ _ => by
      simpa [State.effAddr, State.byteAt, hi] using hmem (s.i.toNat + k)
  rw [drawnImage, drawnImage, hx, hy, hsprite]

/-! ### What DXYN answers (R94) -/

/-- With its sprite in range, or with no row, DXYN has a next state. -/
theorem exists_exec_iDXYN_of_inRange (h : n.toNat = 0 ∨ s.i.toNat + n.toNat ≤ 0x1000) :
    ∃ t, exec (.iDXYN x y n) s = .next t :=
  ⟨_, guarded_of_inRange h⟩

/-- What DXYN leaves: the image exclusive-ored into the framebuffer, whether it met a pixel that was on in VF, and the
other registers (R94, R95 a, b). -/
theorem exec_iDXYN_eq_next (h : exec (.iDXYN x y n) s = .next t) :
    t.pc = s.pc + 2 ∧ (∀ a b, t.fb.pixel a b = (s.fb.pixel a b ^^ drawnImage x y n s a b)) ∧
      t.getV 15 = flagByte (∃ a b, drawnImage x y n s a b = true ∧ s.fb.pixel a b = true) ∧
      ∀ k, k ≠ 15 → t.getV k = s.getV k := by
  obtain ⟨-, hdone⟩ := guarded_eq_next h
  obtain rfl := done_eq_next.mp hdone
  obtain ⟨hpixel, hcollision⟩ := drawSprite_spec (s.getV x) (s.getV y) (s.mem.readBytes (s.effAddr 0) n.toNat) s.fb
    (by rw [Memory.length_readBytes]; omega)
  refine ⟨rfl, hpixel, ?flag, fun k hk => ?others⟩
  case flag =>
    rw [State.getV_act, State.getV_setV, if_pos (show 15 = regF from rfl)]
    exact congrArg flagByte (Bool.eq_iff_iff.mpr (hcollision.trans decide_eq_true_iff.symm))
  case others => rw [State.getV_act, State.getV_setV, if_neg (show k ≠ regF from hk), State.getV_setFb]

end

/-! ### Draws -/

/-- Settles O36: a pixel where a sprite bit lands is exclusive-ored with that bit, and the image is off elsewhere. -/
theorem drawTogglesSetBits : Obligations.DrawTogglesSetBits := by
  refine fun x y n s => ⟨?opcode, fun hrange => ?draws, fun hrows hout => guarded_of_outOfRange hrows hout⟩
  case opcode => exact encodedAs_of_toNat_encode (by simp [encode, formatXYN_toNat, Nat.mul_comm])
  case draws =>
    obtain ⟨t, ht⟩ := exists_exec_iDXYN_of_inRange (x := x) (y := y) hrange
    obtain ⟨hpc, hpixel, hflag, hothers⟩ := exec_iDXYN_eq_next ht
    refine ⟨t, ht, hpc, ?bits, ?untouched, ?collision, ?noCollision, hothers, exec_onlyChanges_mayWrite ht⟩
    case bits =>
      intro r hr c hc a b ha hb
      obtain rfl : a = drawCol (s.getV x) c := Fin.ext ha
      obtain rfl : b = drawLine (s.getV y) r := Fin.ext hb
      rw [hpixel, drawnImage_drawCol_drawLine hr hc]
    case untouched =>
      intro a b hnone
      have hoff : drawnImage x y n s a b = false := by
        refine Bool.eq_false_iff.mpr fun hon => ?_
        obtain ⟨r, hr, c, hc, rfl, rfl⟩ := exists_lands_of_drawnImage hon
        exact hnone r hr c hc ⟨rfl, rfl⟩
      rw [hpixel, hoff, Bool.xor_false]
    case collision =>
      rintro ⟨r, hr, c, hc, a, b, ha, hb, hbit, hwasOn⟩
      obtain rfl : a = drawCol (s.getV x) c := Fin.ext ha
      obtain rfl : b = drawLine (s.getV y) r := Fin.ext hb
      rw [hflag, flagByte_decide_eq_one_iff]
      exact ⟨_, _, (drawnImage_drawCol_drawLine hr hc).trans hbit, hwasOn⟩
    case noCollision =>
      intro hwasOff
      rw [hflag, flagByte_decide_eq_zero_iff]
      rintro ⟨a, b, hon, hwasOn⟩
      obtain ⟨r, hr, c, hc, rfl, rfl⟩ := exists_lands_of_drawnImage hon
      have hbit := (drawnImage_drawCol_drawLine hr hc).symm.trans hon
      exact Bool.eq_false_iff.mp (hwasOff r hr c hc _ _ rfl rfl hbit) hwasOn

/-- Settles O37: what DXYN leaves is said by the sprite's image. -/
theorem drawIsXorWithImage : Obligations.DrawIsXorWithImage := by
  intro x y n s t h
  obtain ⟨-, hpixel, hflag, -⟩ := exec_iDXYN_eq_next h
  exact ⟨hpixel, by rw [hflag]; exact flagByte_decide_eq_one_iff _⟩

/-- Settles O38: the first draw keeps all that the image depends on, so the second exclusive-ors with the same image. A
pixel of the image that was off before both draws is on between them. -/
theorem drawTwiceRestores : Obligations.DrawTwiceRestores := by
  intro x y n s hx hy hrange
  obtain ⟨t, ht⟩ := exists_exec_iDXYN_of_inRange (x := x) (y := y) hrange
  obtain ⟨-, hpixel, hflag, hothers⟩ := exec_iDXYN_eq_next ht
  have hframe := exec_onlyChanges_mayWrite ht
  have hi : t.i = s.i := hframe .i (by simp [mayWrite])
  have himage : drawnImage x y n t = drawnImage x y n s :=
    drawnImage_congr (hothers x hx) (hothers y hy) hi (hframe .mem (by simp [mayWrite]))
  obtain ⟨u, hu⟩ := exists_exec_iDXYN_of_inRange (x := x) (y := y) (n := n) (s := t) (by rwa [hi])
  obtain ⟨-, hpixel', hflag', -⟩ := exec_iDXYN_eq_next hu
  rw [himage] at hflag' hpixel'
  refine ⟨t, u, ht, hu, fun a b => ?restored, ?collides⟩
  case restored => rw [hpixel', hpixel, Bool.xor_assoc, Bool.xor_self, Bool.xor_false]
  case collides =>
    rintro hnoCollision ⟨r, hr, c, hc, hbit⟩
    rw [hflag, flagByte_decide_eq_zero_iff] at hnoCollision
    rw [hflag', flagByte_decide_eq_one_iff]
    have hon : drawnImage x y n s (drawCol (s.getV x) (7 - c)) (drawLine (s.getV y) r) = true := by
      rw [drawnImage_drawCol_drawLine hr (by omega), Nat.sub_sub_self (by omega), hbit]
    have hwasOff := Bool.eq_false_iff.mpr fun hwasOn => hnoCollision ⟨_, _, hon, hwasOn⟩
    exact ⟨_, _, hon, by rw [hpixel, hon, hwasOff, Bool.false_xor]⟩

/-! ### Clear -/

/-- Settles O35: the framebuffer written is off everywhere, and the instruction may write no part but it and pc. -/
theorem clearTurnsEveryPixelOff : Obligations.ClearTurnsEveryPixelOff :=
  ⟨encodedAs_of_toNat_encode rfl, fun s =>
    have hexec : exec .i00E0 s = .next ((s.setFb clearFb).act .cont) := rfl
    ⟨_, hexec, rfl, pixel_clearFb, exec_onlyChanges_mayWrite hexec⟩⟩

end Sys2Proof.Safety

/-! SUPPORT. Proofs of the statements about the keypad and the timers (45_keypad_timers.md): the key a register numbers,
the lowest key that is down, and what EX9E, EXA1 and FX0A answer in each case. -/

namespace Sys2Proof.Machine

section
variable {s : State} {x : Reg} {k : Fin 16}

/-! ### A key skip by the number in VX (45_keypad_timers.md R96, R97) -/

/-- A register with the value k numbers key k. -/
theorem keyOf_of_toNat_eq (h : (s.getV x).toNat = k.val) : s.keyOf x = .ok (s.getKey k) := by
  have hlt : (s.getV x).toNat < 16 := h ▸ k.isLt
  obtain rfl : (⟨(s.getV x).toNat, hlt⟩ : Fin 16) = k := Fin.ext h
  exact keyOf_of_lt hlt

theorem exec_iEX9E_of_toNat_eq (h : (s.getV x).toNat = k.val) : exec (.iEX9E x) s = skipIf (s.getKey k) s := by
  simp only [exec, execEX9E, keyOf_of_toNat_eq h]

theorem exec_iEXA1_of_toNat_eq (h : (s.getV x).toNat = k.val) : exec (.iEXA1 x) s = skipIf (!s.getKey k) s := by
  simp only [exec, execEXA1, keyOf_of_toNat_eq h]

theorem exec_iEX9E_of_gt (h : 15 < (s.getV x).toNat) : exec (.iEX9E x) s = .fault (.keyIndexFault (s.getV x)) := by
  simp only [exec, execEX9E, keyOf_of_ge h]

theorem exec_iEXA1_of_gt (h : 15 < (s.getV x).toNat) : exec (.iEXA1 x) s = .fault (.keyIndexFault (s.getV x)) := by
  simp only [exec, execEXA1, keyOf_of_ge h]

/-! ### The wait for a key (R98) -/

/-- A key that is down with no lower key down is the lowest. -/
theorem lowestKey_of_forall_lt (hdown : s.getKey k = true) (hbelow : ∀ j : Fin 16, j < k → s.getKey j = false) :
    s.lowestKey = some k := by
  cases h : s.lowestKey with
  | none => exact absurd hdown (Bool.eq_false_iff.mp (lowestKey_eq_none.mp h k))
  | some j =>
    obtain ⟨hj, hbelowJ⟩ := lowestKey_eq_some h
    have hkj : k ≤ j := not_lt.mp fun hlt => Bool.eq_false_iff.mp (hbelow j hlt) hj
    have hjk : j ≤ k := not_lt.mp fun hlt => Bool.eq_false_iff.mp (hbelowJ k hlt) hdown
    exact congrArg some (le_antisymm hjk hkj)

/-- With a lowest key the wait ends: its number to VX, and pc + 2. -/
theorem exec_iFX0A_of_lowestKey (h : s.lowestKey = some k) :
    exec (.iFX0A x) s = done .cont (s.setV x (BitVec.ofNat 8 k.val)) := by
  simp only [exec, execFX0A, h]

/-- With no key down the wait holds: the next state is the state itself. -/
theorem exec_iFX0A_of_noKey (h : ∀ k : Fin 16, s.getKey k = false) : exec (.iFX0A x) s = .next s := by
  simp only [exec, execFX0A, lowestKey_eq_none.mpr h]
  exact done_eq_next.mpr rfl

end

/-- A key's number fits in a byte. -/
theorem toNat_ofNat_key (k : Fin 16) : (BitVec.ofNat 8 k.val).toNat = k.val :=
  Nat.mod_eq_of_lt (k.isLt.trans (by decide))

end Sys2Proof.Machine

namespace Sys2Proof.Safety

open Sys2Proof.Machine

/-! ### Keys -/

/-- Settles O39: both instructions end as a skip, on the key VX numbers or on its negation; with no such key both are
the fault. -/
theorem skipTestsKey : Obligations.SkipTestsKey := by
  refine fun x s => ⟨encodedAs_of_formatXI_fixed 0xE 0x9E rfl, encodedAs_of_formatXI_fixed 0xE 0xA1 rfl,
    fun k hk => ?skips, fun hgt => ⟨exec_iEX9E_of_gt hgt, exec_iEXA1_of_gt hgt⟩⟩
  case skips =>
    rw [exec_iEX9E_of_toNat_eq hk, exec_iEXA1_of_toNat_eq hk]
    exact ⟨exists_skipIf_eq_next Iff.rfl s, exists_skipIf_eq_next (Bool.not_eq_true' _).to_iff s⟩

/-- Settles O40: a key with no lower key down is the one FX0A finds, and its number is the byte written to V[X]; with no
key down FX0A holds. -/
theorem waitTakesLowestKey : Obligations.WaitTakesLowestKey := by
  refine fun x s => ⟨encodedAs_of_formatXI_fixed 0xF 0x0A rfl, rfl, fun k hdown hbelow => ?takes, exec_iFX0A_of_noKey⟩
  case takes =>
    obtain ⟨t, ht, hpc, hx, hkept⟩ :=
      exists_exec_of_setV (exec_iFX0A_of_lowestKey (x := x) (lowestKey_of_forall_lt hdown hbelow))
    exact ⟨t, ht, hpc, hx ▸ toNat_ofNat_key k, hkept⟩

/-! ### Timers -/

/-- Settles O41: each instruction copies one byte, and may write no part but the byte's destination and pc. -/
theorem timerMoves : Obligations.TimerMoves := fun x _ =>
  ⟨encodedAs_of_formatXI_fixed 0xF 0x07 rfl, encodedAs_of_formatXI_fixed 0xF 0x15 rfl,
    encodedAs_of_formatXI_fixed 0xF 0x18 rfl, exists_exec_of_setV rfl,
    ⟨_, rfl, rfl, rfl, exec_onlyChanges_mayWrite (i := .iFX15 x) rfl⟩,
    ⟨_, rfl, rfl, rfl, exec_onlyChanges_mayWrite (i := .iFX18 x) rfl⟩⟩

end Sys2Proof.Safety

/-! SUPPORT. Proofs of the statements about the host's operations (46_host_operations.md): each operation as one update
of the state, a run of ticks in closed form, and the invariant through every operation of a history. -/

namespace Sys2Proof.Machine

section
variable {s t : State} {bytes : List Byte}

/-! ### Each operation as one update -/

/-- An accepted load is a block write at 0x200 (46_host_operations.md R103). -/
theorem hostLoad_of_le (h : bytes.length ≤ Config.romMax) :
    hostLoad bytes s = s.setMem (s.mem.writeBytes Config.romBase bytes) := if_pos h

/-- A load that is too large changes nothing (R103). -/
theorem hostLoad_of_lt (h : Config.romMax < bytes.length) : hostLoad bytes s = s := if_neg (Nat.not_le.mpr h)

/-- `set_key` with an index that is a key sets it (R105). -/
theorem hostSetKey_val (k : Fin 16) (p : Bool) (s : State) : hostSetKey k.val p s = s.setKey k p := dif_pos k.isLt

/-- `set_key` with an index above 15 changes nothing (R105). -/
theorem hostSetKey_of_gt {index : Nat} (h : 15 < index) (p : Bool) (s : State) : hostSetKey index p s = s :=
  dif_neg (Nat.not_lt.mpr h)

/-! ### Ticks in closed form (R104) -/

/-- A timer lowered by n and stopped at 0: natural-number subtraction stops there. -/
def lowered (b : Byte) (n : Nat) : Byte := .ofNat 8 (b.toNat - n)

@[simp] theorem toNat_lowered (b : Byte) (n : Nat) : (lowered b n).toNat = b.toNat - n :=
  Nat.mod_eq_of_lt ((Nat.sub_le _ _).trans_lt b.isLt)

@[simp] theorem lowered_zero (b : Byte) : lowered b 0 = b := BitVec.eq_of_toNat_eq (toNat_lowered b 0)

@[simp] theorem lowered_lowered (b : Byte) (m n : Nat) : lowered (lowered b m) n = lowered b (m + n) :=
  BitVec.eq_of_toNat_eq (by simp [Nat.sub_sub])

/-- Lowering by one, case by case: a timer at 0 stays, another goes down by 1. -/
theorem lowered_one (b : Byte) : lowered b 1 = if b = 0 then b else b - 1 := by
  apply BitVec.eq_of_toNat_eq
  rw [toNat_lowered]
  split
  case isTrue h => rw [h]; rfl
  case isFalse h => bv_omega

/-- The state with both timers lowered by n: what n ticks leave (`history_replicate_tickTimers`). -/
def tickedBy (n : Nat) (s : State) : State := (s.setDT (lowered s.dt n)).setST (lowered s.st n)

theorem tickedBy_zero (s : State) : tickedBy 0 s = s := by
  rw [tickedBy, lowered_zero, lowered_zero]
  rfl

theorem tickedBy_tickedBy (m n : Nat) (s : State) : tickedBy n (tickedBy m s) = tickedBy (m + n) s := by
  simp only [tickedBy, State.setST_dt, State.setST_st, State.setDT_dt, lowered_lowered]
  rfl

/-- A tick lowers each timer by one, whichever of the two stand at 0. -/
theorem hostTick_eq (s : State) : hostTick s = tickedBy 1 s := by
  rw [hostTick, tickedBy, lowered_one, lowered_one]
  by_cases hdt : s.dt = 0
  · rw [if_pos hdt, if_pos hdt]
    split <;> rfl
  · rw [if_neg hdt, if_neg hdt]
    split <;> rfl

/-! ### Histories -/

/-- A history with a next state is its first operation and then the rest (R110). -/
theorem history_cons_eq_next {op : HostOp} {ops : List HostOp} :
    history (op :: ops) s = .next t ↔ ∃ u, perform op s = .next u ∧ history ops u = .next t := by
  rw [history]
  cases perform op s <;> simp

/-- A run of n ticks (R104). -/
theorem history_replicate_tickTimers (n : Nat) (s : State) :
    history (List.replicate n .tickTimers) s = .next (tickedBy n s) := by
  induction n generalizing s with
  | zero => rw [tickedBy_zero]; rfl
  | succ n ih =>
    rw [List.replicate_succ, history_cons_eq_next]
    exact ⟨hostTick s, rfl, by rw [ih, hostTick_eq, tickedBy_tickedBy, Nat.add_comm]⟩

/-! ### The views (R107) -/

/-- Element y * 64 + x of the view is the pixel at column x and row y. -/
theorem getElem_hostFramebuffer (s : State) (a : Fin 64) (b : Fin 32) {j : Nat} (hj : j < 2048)
    (h : j = b.val * 64 + a.val) : (hostFramebuffer s)[j] = BitVec.ofBool (s.fb.pixel a b) := by
  have ha : Fin.ofNat 64 j = a := Fin.ext (by simp only [Fin.val_ofNat]; omega)
  have hb : (⟨j / 64, by omega⟩ : Fin 32) = b := Fin.ext (by simp only; omega)
  rw [hostFramebuffer, Vector.getElem_ofFn, ha, hb]

end

end Sys2Proof.Machine

namespace Sys2Proof.Safety

open Sys2Proof.Machine

/-! ### The invariant -/

section
variable {s t : State}

/-- A load keeps the invariant: the longest accepted buffer ends at 0xFFF. -/
theorem hostLoad_keeps_inv (hs : Inv s) (bytes : List Byte) : Inv (hostLoad bytes s) := by
  obtain hle | hlt := le_or_gt bytes.length Config.romMax
  · obtain ⟨hwf, hpc, hslots⟩ := hs
    rw [hostLoad_of_le hle]
    exact ⟨Memory.wf_writeBytes (Nat.add_le_add_left hle Config.romBase) hwf, hpc, hslots⟩
  · rwa [hostLoad_of_lt hlt]

theorem hostTick_keeps_inv (hs : Inv s) : Inv (hostTick s) := by
  rw [hostTick_eq]
  exact hs

theorem hostSetKey_keeps_inv (hs : Inv s) (index : Nat) (p : Bool) : Inv (hostSetKey index p s) := by
  obtain hlt | hge := Nat.lt_or_ge index 16
  · rw [hostSetKey_val ⟨index, hlt⟩]
    exact hs
  · rwa [hostSetKey_of_gt hge]

/-- Every operation of the host keeps the invariant (46_host_operations.md R102). -/
theorem perform_keeps_inv {op : HostOp} (hs : Inv s) (h : perform op s = .next t) : Inv t := by
  obtain ⟨bytes, rfl⟩ | hstep | rfl | ⟨index, p, rfl⟩ | rfl | rfl := perform_eq_next h
  · exact hostLoad_keeps_inv hs bytes
  · exact stepKeepsInvariant s t hs hstep
  · exact hostTick_keeps_inv hs
  · exact hostSetKey_keeps_inv hs index p
  · exact invariantAtReset
  · exact hs

end

/-- Settles O45, by induction on the history: every operation of the host keeps the invariant. -/
theorem historyKeepsInvariant : Obligations.HistoryKeepsInvariant := by
  intro ops
  induction ops with
  | nil =>
    intro s t hs h
    obtain rfl := Host.Outcome.next.inj h
    exact hs
  | cons op ops ih =>
    intro s t hs h
    obtain ⟨u, hop, hops⟩ := history_cons_eq_next.mp h
    exact ih u t (perform_keeps_inv hs hop) hops

/-! ### load, tick_timers, set_key and the views -/

theorem OnlyChanges.setKey (s : State) (k : Fin 16) (p : Bool) : OnlyChanges [.key] s (s.setKey k p) := by
  intro q hq
  cases q <;> simp [Part.Same] at hq ⊢

theorem OnlyChanges.tickedBy (n : Nat) (s : State) : OnlyChanges [.dt, .st] s (tickedBy n s) :=
  ((OnlyChanges.setDT s _).mono (by simp)).trans ((OnlyChanges.setST _ _).mono (by simp))

/-- Settles O52: an accepted load is a block write at 0x200, a longer one is the state itself. -/
theorem loadCopiesOrRefuses : Obligations.LoadCopiesOrRefuses := by
  refine fun bytes s => ⟨fun hle => ?accepted, fun hlt => ?refused⟩
  case accepted =>
    exact ⟨if_pos hle, _, congrArg Host.Outcome.next (hostLoad_of_le hle),
      fun k => read_writeBytes_add s.mem Config.romBase k.isLt,
      fun _ ha => read_writeBytes_of_outside s.mem Config.romBase ha, .setMem _ _⟩
  case refused => exact ⟨if_neg (Nat.not_le.mpr hlt), congrArg Host.Outcome.next (hostLoad_of_lt hlt)⟩

/-- Settles O53: n ticks leave each timer lowered by n and stopped at 0. -/
theorem tickCountsTimersDown : Obligations.TickCountsTimersDown := fun n s =>
  ⟨rfl, tickedBy n s, history_replicate_tickTimers n s, toNat_lowered s.dt n, toNat_lowered s.st n, .tickedBy n s⟩

/-- Settles O54: an index that is a key sets that key alone, one above 15 is refused. -/
theorem setKeyChangesOneKey : Obligations.SetKeyChangesOneKey := by
  refine fun index p s => ⟨fun k hk => ?sets, fun hgt => ?refused⟩
  case sets =>
    subst hk
    refine ⟨if_pos k.isLt, s.setKey k p, congrArg Host.Outcome.next (hostSetKey_val k p s), ?_, fun j hj => ?_,
      .setKey s k p⟩
    · rw [State.getKey_setKey, if_pos rfl]
    · rw [State.getKey_setKey, if_neg hj]
  case refused => exact ⟨if_neg (Nat.not_lt.mpr hgt), congrArg Host.Outcome.next (hostSetKey_of_gt hgt p s)⟩

/-- Settles O56: the views are the state's own parts, the framebuffer read row by row. -/
theorem viewsShowState : Obligations.ViewsShowState := by
  refine fun s => ⟨rfl, rfl, rfl, rfl, rfl, hostFramebuffer s, rfl, fun a b j hj => ?_⟩
  rw [getElem_hostFramebuffer s a b j.isLt hj]
  cases s.fb.pixel a b <;> rfl

end Sys2Proof.Safety

/-! SUPPORT. Proofs of the statements about the out-of-spec faults (60_exceptions.md): the shared operations that can
fault, with which fault, and the ends of a step. -/

namespace Sys2Proof.Machine

/-! ### What can fault (60_exceptions.md R112) -/

section
variable {s : State} {f : Fault}

theorem done_ne_fault {a : PcAction} : done a s ≠ .fault f := nofun

theorem skipIf_ne_fault {c : Bool} : skipIf c s ≠ .fault f := by
  cases c <;> exact done_ne_fault

theorem exec00EE_ne_fault : exec00EE s ≠ .fault f := by
  unfold exec00EE
  split <;> exact done_ne_fault

theorem exec2NNN_ne_fault {nnn : Addr12} : exec2NNN nnn s ≠ .fault f := by
  unfold exec2NNN
  split <;> exact done_ne_fault

theorem execFX0A_ne_fault {x : Reg} : execFX0A x s ≠ .fault f := by
  unfold execFX0A
  split <;> exact done_ne_fault

/-- A guarded access can only fault with its own kind, at an address above memory (20_memory.md R33). -/
theorem exists_addressFault_of_guarded_done {k : AccessKind} {base len : Nat} {a : PcAction}
    (h : guarded k base len (done a s) = .fault f) : ∃ addr, f = .addressFault k addr ∧ 0x1000 ≤ addr := by
  unfold guarded at h
  split at h
  next hfault =>
    obtain ⟨-, -, rfl⟩ := rangeFault_eq_some.mp hfault
    obtain rfl := Host.Outcome.fault.inj h
    exact ⟨_, rfl, Nat.le_max_right ..⟩
  next => exact absurd h done_ne_fault

/-- A register that numbers no key is above 15, and its value is the fault's (45_keypad_timers.md R96, R97). -/
theorem keyOf_eq_error {x : Reg} (h : s.keyOf x = .error f) :
    f = .keyIndexFault (s.getV x) ∧ 15 < (s.getV x).toNat := by
  by_cases hkey : (s.getV x).toNat < 16
  · rw [keyOf_of_lt hkey] at h
    cases h
  · have hgt := Nat.le_of_not_lt hkey
    rw [keyOf_of_ge hgt] at h
    exact ⟨(Except.error.inj h).symm, hgt⟩

theorem keyOf_of_execEX9E_eq_fault {x : Reg} (h : execEX9E x s = .fault f) : s.keyOf x = .error f := by
  unfold execEX9E at h
  split at h
  next => exact absurd h skipIf_ne_fault
  next hkey => exact Host.Outcome.fault.inj h ▸ hkey

theorem keyOf_of_execEXA1_eq_fault {x : Reg} (h : execEXA1 x s = .fault f) : s.keyOf x = .error f := by
  unfold execEXA1 at h
  split at h
  next => exact absurd h skipIf_ne_fault
  next hkey => exact Host.Outcome.fault.inj h ▸ hkey

end

end Sys2Proof.Machine

namespace Sys2Proof.Safety

open Sys2Proof.Machine

/-- Settles O9: a step ends in a fault, which is one of the two, or in the next state of an unknown opcode or of an
instruction. -/
theorem stepIsNeverRefused : Obligations.StepIsNeverRefused := by
  intro s
  obtain ⟨f, hstep, -⟩ | ⟨op, hop, hnone, -⟩ | ⟨i, t, -, hstep, hexec, -⟩ := stepReport_cases s
  · cases f with
    | addressFault k a => exact .inr (.inl ⟨k, a, hstep⟩)
    | keyIndexFault v => exact .inr (.inr ⟨v, hstep⟩)
  · exact .inl ⟨_, step_of_unknownOpcode hop hnone⟩
  · exact .inl ⟨t, hstep.trans hexec⟩

/-- Settles O10, by the shared operation each instruction ends in: only a guarded access and a key's number can fault. -/
theorem onlyListedInstructionsFault : Obligations.OnlyListedInstructionsFault := by
  intro i s f h
  cases i with
  | iDXYN x y n => exact .inl ⟨exists_addressFault_of_guarded_done h, .inl ⟨x, y, n, rfl⟩⟩
  | iFX65 x => exact .inl ⟨exists_addressFault_of_guarded_done h, .inr ⟨x, rfl⟩⟩
  | iFX33 x => exact .inr (.inl ⟨exists_addressFault_of_guarded_done h, .inl ⟨x, rfl⟩⟩)
  | iFX55 x => exact .inr (.inl ⟨exists_addressFault_of_guarded_done h, .inr ⟨x, rfl⟩⟩)
  | iEX9E x =>
    obtain ⟨hf, hgt⟩ := keyOf_eq_error (keyOf_of_execEX9E_eq_fault h)
    exact .inr (.inr ⟨x, hf, hgt, .inl rfl⟩)
  | iEXA1 x =>
    obtain ⟨hf, hgt⟩ := keyOf_eq_error (keyOf_of_execEXA1_eq_fault h)
    exact .inr (.inr ⟨x, hf, hgt, .inr rfl⟩)
  | i00EE => exact absurd h exec00EE_ne_fault
  | i2NNN => exact absurd h exec2NNN_ne_fault
  | iFX0A => exact absurd h execFX0A_ne_fault
  | i3XNN | i4XNN | i5XY0 | i9XY0 => exact absurd h skipIf_ne_fault
  | i00E0 | i1NNN | i6XNN | i7XNN | i8XY0 | i8XY1 | i8XY2 | i8XY3 | i8XY4 | i8XY5 | i8XY6 | i8XY7 | i8XYE | iANNN | iBNNN
  | iCXNN | iFX07 | iFX15 | iFX18 | iFX1E | iFX29 => exact absurd h done_ne_fault

end Sys2Proof.Safety

/-! SUPPORT. Proofs of the statements about reset and the states that repeat (70_reset_and_hazards.md): the step of a state
whose instruction is known, the words ended, hung and waiting as what the step does, and the frame of the host's reset. -/

namespace Sys2Proof.Machine

/-- Writing pc with the value it has changes nothing. -/
@[simp] theorem State.setPc_self (s : State) : s.setPc s.pc = s := rfl

/-- A state whose step is itself stays as it is, however often it is stepped (70_reset_and_hazards.md R129, R131). -/
theorem history_replicate_stepCycle_of_step_eq_self {s : State} (h : step s = .next s) (n : Nat) :
    history (List.replicate n .stepCycle) s = .next s := by
  induction n with
  | zero => rfl
  | succ n ih => exact history_cons_eq_next.mpr ⟨s, h, ih⟩

/-- A jump to pc is a jump to the state itself (41_flow.md R66). -/
theorem exec_i1NNN_of_toNat_eq {nnn : Addr12} {s : State} (h : nnn.toNat = s.pc.toNat) :
    exec (.i1NNN nnn) s = .next s := by
  have htarget : zext16 nnn = s.pc := BitVec.eq_of_toNat_eq ((toNat_zext16_addr nnn).trans h)
  refine done_eq_next.mpr ?_
  rw [htarget]
  exact s.setPc_self.symm

end Sys2Proof.Machine

namespace Sys2Proof.Safety

open Sys2Proof.Machine

section
variable {s : State} {i : Instr}

/-! ### The step of the instruction at pc (40_machine_cycle.md R59, R62) -/

/-- The instruction at pc is the decoding of a word the fetch answers. -/
theorem exists_fetch_of_instrAt (h : instrAt s = some i) : ∃ op, fetch s = .ok op ∧ decodeWord op = some i := by
  unfold instrAt at h
  split at h
  next op hop => exact ⟨op, hop, h⟩
  next => cases h

theorem step_of_instrAt (h : instrAt s = some i) : step s = exec i s := by
  obtain ⟨op, hop, hi⟩ := exists_fetch_of_instrAt h
  exact stepRunsDecodedInstruction s op i hop hi

theorem stepReport_of_instrAt {t : State} (h : instrAt s = some i) (hexec : exec i s = .next t) :
    stepReport s = instrReport i s := by
  obtain ⟨op, hop, hi⟩ := exists_fetch_of_instrAt h
  simp only [stepReport, hop, hi, hexec]

/-- The fetch reads pc and memory alone, so a key changes no instruction. -/
theorem instrAt_setKey (s : State) (k : Fin 16) (p : Bool) : instrAt (s.setKey k p) = instrAt s := rfl

/-! ### Ended, hung and waiting (70_reset_and_hazards.md R129 to R131) -/

/-- An ended program stands at a jump to pc. -/
theorem exists_jump_of_ended (h : ended s = true) : ∃ nnn, instrAt s = some (.i1NNN nnn) ∧ nnn.toNat = s.pc.toNat := by
  unfold ended at h
  split at h
  next nnn hi => exact ⟨nnn, hi, beq_iff_eq.mp h⟩
  next => cases h

theorem step_of_ended (h : ended s = true) : step s = .next s := by
  obtain ⟨nnn, hi, hpc⟩ := exists_jump_of_ended h
  exact (step_of_instrAt hi).trans (exec_i1NNN_of_toNat_eq hpc)

theorem hung_iff : hung s = true ↔ stepReport s = .stackOverflow ∨ stepReport s = .stackUnderflow := by
  simp [hung]

theorem step_of_hung (h : hung s = true) : step s = .next s := by
  obtain hover | hunder := hung_iff.mp h
  · exact (step_of_stackOverflow hover).1
  · exact (step_of_stackUnderflow hunder).1

/-- A waiting state stands at FX0A with no key down. -/
theorem exists_wait_of_waiting (h : waiting s = true) :
    ∃ x, instrAt s = some (.iFX0A x) ∧ ∀ k : Fin 16, s.getKey k = false := by
  unfold waiting at h
  split at h
  next x hi => exact ⟨x, hi, lowestKey_eq_none.mp (Option.isNone_iff_eq_none.mp h)⟩
  next => cases h

end

/-- Settles O49: either stack fault steps to the same state. -/
theorem stackFaultRepeats : Obligations.StackFaultRepeats := fun _ h =>
  history_replicate_stepCycle_of_step_eq_self (step_of_hung h)

/-- Settles O50: the jump to itself steps to the same state. -/
theorem endedIsFixedPoint : Obligations.EndedIsFixedPoint := fun _ h =>
  history_replicate_stepCycle_of_step_eq_self (step_of_ended h)

/-- Settles O51: the pressed key is the only one down, so it is the lowest, and FX0A, still at pc, takes it. -/
theorem heldWaitEndsWithKey : Obligations.HeldWaitEndsWithKey := by
  intro s h
  obtain ⟨x, hi, hup⟩ := exists_wait_of_waiting h
  have hold : exec (.iFX0A x) s = .next s := exec_iFX0A_of_noKey hup
  refine ⟨(step_of_instrAt hi).trans hold, stepReport_of_instrAt hi hold, fun k => ?pressed⟩
  case pressed =>
    have hdown : (s.setKey k true).getKey k = true := by rw [State.getKey_setKey, if_pos rfl]
    have hbelow : ∀ j : Fin 16, j < k → (s.setKey k true).getKey j = false := fun j hj => by
      rw [State.getKey_setKey, if_neg hj.ne, hup]
    obtain ⟨_, _, takes, _⟩ := waitTakesLowestKey x (s.setKey k true)
    obtain ⟨t, hexec, hpc, hx, -⟩ := takes k hdown hbelow
    have hset : perform (.setKey k.val true) s = .next (s.setKey k true) := congrArg _ (hostSetKey_val k true s)
    have hstep : step (s.setKey k true) = .next t := (step_of_instrAt ((instrAt_setKey s k true).trans hi)).trans hexec
    exact ⟨x, t, hi, history_cons_eq_next.mpr ⟨_, hset, history_cons_eq_next.mpr ⟨t, hstep, rfl⟩⟩, hx, hpc⟩

/-! ### The host's reset (70_reset_and_hazards.md R125) -/

/-- The host's reset is the reset state in every part but the model's own `draws` (log entry 3). -/
theorem OnlyChanges.hostReset (s : State) : OnlyChanges [.draws] State.reset (hostReset s) := by
  intro p hp
  cases p with
  | draws => exact absurd (List.mem_singleton_self _) hp
  | stack => exact ⟨rfl, rfl⟩
  | i | pc | dt | st => rfl
  | v | key | mem => exact fun _ => rfl
  | fb => exact fun _ _ => rfl

/-- Settles O55: the state `reset` leaves takes every field but `draws` from the reset state. -/
theorem hostResetRestores : Obligations.HostResetRestores := fun s => ⟨hostReset s, rfl, .hostReset s, rfl⟩

end Sys2Proof.Safety
